-- ==== Sys2Proof/Word.lean ====
section
/-!
DEFINITION. The word types of the hardware and the signed reading of a word (00_scope.md R5, R8, R9).
-/

namespace Sys2Proof

/-- A 32-bit pattern: register value, memory word, address, pc, instruction word (R5 `XLEN`, R9). -/
abbrev Word := BitVec 32

/-- One byte of memory, 8 bits (R5, D17). -/
abbrev Byte := BitVec 8

/-- A register index: the 5-bit fields `rd`, `rs1`, `rs2` of an instruction word (R11, R50). -/
abbrev RegIx := BitVec 5

end Sys2Proof
end

