-- ==== Sys2Proof/Config.lean ====
section
/-!
DEFINITION. What is fixed for one machine and is not architectural state: the parameters the source leaves
without a number (00_scope.md R6), the ceiling (R5), the halt word (R5), the encoding constants
(30_encoding.md R60) and what a byte nothing has written reads as (10_state.md R26).
The spec leaves no value free (93_implementation_defined.md section 1), so no constant here is opaque.
-/

namespace Sys2Proof

/-- The parameters of R5 and R6. The model takes them as arguments (D1): a machine carries them in its state's
one constant field (log 1), so that claims are stated for every choice. -/
structure Params where
  /-- `CODE_BASE` -/
  codeBase : Nat
  /-- `CODE_SIZE` in bytes -/
  codeSize : Nat
  /-- `STACK_BASE` -/
  stackBase : Nat
  /-- `STACK_SIZE` in bytes -/
  stackSize : Nat
  /-- `DATA_BASE` -/
  dataBase : Nat
  /-- `DATA_SIZE` in bytes -/
  dataSize : Nat
  /-- `MAX_INSTRUCTIONS`, the caller-supplied ceiling -/
  maxInstructions : Nat
  deriving DecidableEq, Repr

/-- `CODE_END`, the first address past the code region (R6). -/
def Params.codeEnd (p : Params) : Nat := p.codeBase + p.codeSize

/-- `STACK_END` (R6). -/
def Params.stackEnd (p : Params) : Nat := p.stackBase + p.stackSize

/-- `DATA_END` (R6). -/
def Params.dataEnd (p : Params) : Nat := p.dataBase + p.dataSize

/-- The defaults of R5 and R6. The six region numbers are the spec's own, from general knowledge (K3). -/
def Config.defaults : Params where
  codeBase := 0x0
  codeSize := 0x100
  stackBase := 0x100
  stackSize := 0x80
  dataBase := 0x10000
  dataSize := 0x80
  maxInstructions := 1000

/-- `HALT_WORD`, the virtual-halt instruction word (R5, R142). -/
def Config.haltWord : Word := 0x00000063#32

/-- What a byte of the three regions reads as when nothing has written it: 0 (R26; the spec's D13, log 5).
The memory list holds no entry with this value. -/
def Config.unlistedByte : Byte := 0#8

/-- The named constants of R60, as a table the decoder is handed (R7). -/
structure Encoding where
  /-- `OPC_OP`, the register-register group -/
  opcOp : BitVec 7
  /-- `OPC_OP_IMM` -/
  opcOpImm : BitVec 7
  /-- `OPC_LOAD` -/
  opcLoad : BitVec 7
  /-- `OPC_STORE` -/
  opcStore : BitVec 7
  /-- `OPC_BRANCH` -/
  opcBranch : BitVec 7
  /-- `OPC_JALR` -/
  opcJalr : BitVec 7
  /-- `F3_ADD_SUB` -/
  f3AddSub : BitVec 3
  /-- `F3_SLT` -/
  f3Slt : BitVec 3
  /-- `F3_SRL` -/
  f3Srl : BitVec 3
  /-- `F3_OR` -/
  f3Or : BitVec 3
  /-- `F3_AND` -/
  f3And : BitVec 3
  /-- `F3_ADDI` -/
  f3Addi : BitVec 3
  /-- `F3_LW` -/
  f3Lw : BitVec 3
  /-- `F3_SW` -/
  f3Sw : BitVec 3
  /-- `F3_BEQ` -/
  f3Beq : BitVec 3
  /-- `F3_BNE` -/
  f3Bne : BitVec 3
  /-- `F3_BLT` -/
  f3Blt : BitVec 3
  /-- `F3_JALR` -/
  f3Jalr : BitVec 3
  /-- `F7_BASE` -/
  f7Base : BitVec 7
  /-- `F7_ALT`, `sub` -/
  f7Alt : BitVec 7
  deriving DecidableEq, Repr

/-- The values of R60. `opcBranch` and `f3Beq` are fixed by the halt word; the spec marks every other value
as general knowledge (D2, K2): UNVERIFIED, log 2. -/
def Config.encoding : Encoding where
  opcOp := 0x33#7
  opcOpImm := 0x13#7
  opcLoad := 0x03#7
  opcStore := 0x23#7
  opcBranch := 0x63#7
  opcJalr := 0x67#7
  f3AddSub := 0#3
  f3Slt := 2#3
  f3Srl := 5#3
  f3Or := 6#3
  f3And := 7#3
  f3Addi := 0#3
  f3Lw := 2#3
  f3Sw := 2#3
  f3Beq := 0#3
  f3Bne := 1#3
  f3Blt := 4#3
  f3Jalr := 0#3
  f7Base := 0x00#7
  f7Alt := 0x20#7

end Sys2Proof
end

