-- ==== Sys2Proof/Syntax.lean ====
section
/-!
DEFINITION. The thirteen instructions, one constructor per row of spec/opcode_table.json, with the operands
R59 and R66 give each. An immediate is the field as the format holds it: 12 bits for I-imm and S-imm
(R52, R53), 13 bits with bit 0 clear for B-imm (R54).
-/

namespace Sys2Proof

inductive Instr where
  /-- `add rd, rs1, rs2` (R80) -/
  | add (rd rs1 rs2 : RegIx)
  /-- `sub rd, rs1, rs2` (R81) -/
  | sub (rd rs1 rs2 : RegIx)
  /-- `slt rd, rs1, rs2` (R82) -/
  | slt (rd rs1 rs2 : RegIx)
  /-- `srl rd, rs1, rs2` (R83) -/
  | srl (rd rs1 rs2 : RegIx)
  /-- `or rd, rs1, rs2` (R84) -/
  | or (rd rs1 rs2 : RegIx)
  /-- `and rd, rs1, rs2` (R85) -/
  | and (rd rs1 rs2 : RegIx)
  /-- `addi rd, rs1, imm` (R90) -/
  | addi (rd rs1 : RegIx) (imm : BitVec 12)
  /-- `lw rd, imm(rs1)` (R95) -/
  | lw (rd rs1 : RegIx) (imm : BitVec 12)
  /-- `sw rs2, imm(rs1)` (R96) -/
  | sw (rs2 rs1 : RegIx) (imm : BitVec 12)
  /-- `beq rs1, rs2, off` (R100) -/
  | beq (rs1 rs2 : RegIx) (off : BitVec 13)
  /-- `bne rs1, rs2, off` (R101) -/
  | bne (rs1 rs2 : RegIx) (off : BitVec 13)
  /-- `blt rs1, rs2, off` (R102) -/
  | blt (rs1 rs2 : RegIx) (off : BitVec 13)
  /-- `jalr rd, rs1, imm` (R110) -/
  | jalr (rd rs1 : RegIx) (imm : BitVec 12)
  deriving DecidableEq, Repr

end Sys2Proof
end

