-- ==== Sys2Proof/WellFormed.lean ====
section
/-!
DEFINITION. Which instruction terms have an encoding, and which parameters the spec admits.
-/

namespace Sys2Proof

/-- A branch offset has an encoding exactly when its bit 0 is 0 (R54: "low bit forced to 0"). -/
def evenOffset (off : BitVec 13) : Bool := off.getLsbD 0 == false

/-- The terms an instruction word can stand for. Every register index and every 12-bit immediate is accepted
(R64); a branch offset must be even (R54). -/
def Instr.wellFormed : Instr → Bool
  | .add _ _ _ => true
  | .sub _ _ _ => true
  | .slt _ _ _ => true
  | .srl _ _ _ => true
  | .or _ _ _ => true
  | .and _ _ _ => true
  | .addi _ _ _ => true
  | .lw _ _ _ => true
  | .sw _ _ _ => true
  | .beq _ _ off => evenOffset off
  | .bne _ _ off => evenOffset off
  | .blt _ _ off => evenOffset off
  | .jalr _ _ _ => true

/-- The constraints of R6 (and D1): word-aligned bases and sizes, no empty region, the stack immediately above
the code, the data strictly higher, all inside the 32-bit space; and a ceiling of at least 1 (R124, D12). -/
def Params.wellFormed (p : Params) : Bool :=
  p.codeBase % 4 == 0 && p.stackBase % 4 == 0 && p.dataBase % 4 == 0
    && p.codeSize % 4 == 0 && p.stackSize % 4 == 0 && p.dataSize % 4 == 0
    && decide (0 < p.codeSize) && decide (0 < p.stackSize) && decide (0 < p.dataSize)
    && p.stackBase == p.codeEnd
    && decide (p.stackEnd < p.dataBase)
    && decide (p.dataEnd ≤ 2 ^ 32)
    && decide (1 ≤ p.maxInstructions)

end Sys2Proof
end

