-- ==== Sys2Proof/Decode.lean ====
section
/-!
DEFINITION. The `decoder` (30_encoding.md R50 to R57), the opcode map (R60, R61), the illegal space (R63), and
the encoder built from the same table (R65).
-/

namespace Sys2Proof

/-! ## The six structural fields (R50) -/

/-- `opcode = w[6:0]` -/
def opcodeField (w : Word) : BitVec 7 := w.extractLsb 6 0
/-- `rd = w[11:7]` -/
def rdField (w : Word) : RegIx := w.extractLsb 11 7
/-- `funct3 = w[14:12]` -/
def funct3Field (w : Word) : BitVec 3 := w.extractLsb 14 12
/-- `rs1 = w[19:15]` -/
def rs1Field (w : Word) : RegIx := w.extractLsb 19 15
/-- `rs2 = w[24:20]` -/
def rs2Field (w : Word) : RegIx := w.extractLsb 24 20
/-- `funct7 = w[31:25]` -/
def funct7Field (w : Word) : BitVec 7 := w.extractLsb 31 25

/-! ## The five immediates (R51 to R56) -/

/-- `sext_N` (R51): the field's top bit fills bits 31 down to N. -/
def sext {n : Nat} (v : BitVec n) : Word := v.signExtend 32

/-- The 12 bits of I-imm (R52). -/
def iField (w : Word) : BitVec 12 := w.extractLsb 31 20
/-- The 12 bits of S-imm (R53). -/
def sField (w : Word) : BitVec 12 := w.extractLsb 31 25 ++ w.extractLsb 11 7
/-- The 13 bits of B-imm (R54). -/
def bField (w : Word) : BitVec 13 :=
  w.extractLsb 31 31 ++ w.extractLsb 7 7 ++ w.extractLsb 30 25 ++ w.extractLsb 11 8 ++ 0#1
/-- The 21 bits of J-imm (R56). -/
def jField (w : Word) : BitVec 21 :=
  w.extractLsb 31 31 ++ w.extractLsb 19 12 ++ w.extractLsb 20 20 ++ w.extractLsb 30 21 ++ 0#1

/-- The decoder's eleven outputs, computed for every word (R57). -/
structure DecoderOutputs where
  opcode : BitVec 7
  rd : RegIx
  funct3 : BitVec 3
  rs1 : RegIx
  rs2 : RegIx
  funct7 : BitVec 7
  iImm : Word
  sImm : Word
  bImm : Word
  uImm : Word
  jImm : Word
  deriving DecidableEq, Repr

/-- The decoder, a pure function of the word that cannot fail (R57, R119). -/
def decoderOutputs (w : Word) : DecoderOutputs where
  opcode := opcodeField w
  rd := rdField w
  funct3 := funct3Field w
  rs1 := rs1Field w
  rs2 := rs2Field w
  funct7 := funct7Field w
  iImm := sext (iField w)
  sImm := sext (sField w)
  bImm := sext (bField w)
  uImm := w.extractLsb 31 12 ++ 0#12
  jImm := sext (jField w)

/-! ## The opcode map (R60, R61) -/

/-- The mnemonics of the map. -/
inductive Mnemonic where
  | add | sub | slt | srl | or | and | addi | lw | sw | beq | bne | blt | jalr
  deriving DecidableEq, Repr

/-- One row of the map of R61: the key is `(opcode, funct3)`, and `funct7` for the register-register group. -/
structure Row where
  mnemonic : Mnemonic
  opcode : BitVec 7
  funct3 : BitVec 3
  funct7 : Option (BitVec 7)
  deriving DecidableEq, Repr

/-- The complete map of R61, over the named constants of R60. -/
def Encoding.rows (t : Encoding) : List Row :=
  [⟨.add, t.opcOp, t.f3AddSub, some t.f7Base⟩,
   ⟨.sub, t.opcOp, t.f3AddSub, some t.f7Alt⟩,
   ⟨.slt, t.opcOp, t.f3Slt, some t.f7Base⟩,
   ⟨.srl, t.opcOp, t.f3Srl, some t.f7Base⟩,
   ⟨.or, t.opcOp, t.f3Or, some t.f7Base⟩,
   ⟨.and, t.opcOp, t.f3And, some t.f7Base⟩,
   ⟨.addi, t.opcOpImm, t.f3Addi, none⟩,
   ⟨.lw, t.opcLoad, t.f3Lw, none⟩,
   ⟨.sw, t.opcStore, t.f3Sw, none⟩,
   ⟨.beq, t.opcBranch, t.f3Beq, none⟩,
   ⟨.bne, t.opcBranch, t.f3Bne, none⟩,
   ⟨.blt, t.opcBranch, t.f3Blt, none⟩,
   ⟨.jalr, t.opcJalr, t.f3Jalr, none⟩]

/-- Exact match of the key (R61). -/
def Row.hits (r : Row) (w : Word) : Bool :=
  opcodeField w == r.opcode && funct3Field w == r.funct3
    && match r.funct7 with
       | some f7 => funct7Field w == f7
       | none => true

/-- The `mask` column of R61. -/
def Row.mask (r : Row) : Word :=
  match r.funct7 with
  | some _ => 0xFE00707F#32
  | none => 0x0000707F#32

/-- The `match` column of R61. -/
def Row.pattern (r : Row) : Word :=
  match r.funct7 with
  | some f7 => f7 ++ 0#10 ++ r.funct3 ++ 0#5 ++ r.opcode
  | none => 0#17 ++ r.funct3 ++ 0#5 ++ r.opcode

/-- The instruction a row makes of a word's fields (R59). -/
def Mnemonic.build (m : Mnemonic) (w : Word) : Instr :=
  match m with
  | .add => .add (rdField w) (rs1Field w) (rs2Field w)
  | .sub => .sub (rdField w) (rs1Field w) (rs2Field w)
  | .slt => .slt (rdField w) (rs1Field w) (rs2Field w)
  | .srl => .srl (rdField w) (rs1Field w) (rs2Field w)
  | .or => .or (rdField w) (rs1Field w) (rs2Field w)
  | .and => .and (rdField w) (rs1Field w) (rs2Field w)
  | .addi => .addi (rdField w) (rs1Field w) (iField w)
  | .lw => .lw (rdField w) (rs1Field w) (iField w)
  | .sw => .sw (rs2Field w) (rs1Field w) (sField w)
  | .beq => .beq (rs1Field w) (rs2Field w) (bField w)
  | .bne => .bne (rs1Field w) (rs2Field w) (bField w)
  | .blt => .blt (rs1Field w) (rs2Field w) (bField w)
  | .jalr => .jalr (rdField w) (rs1Field w) (iField w)

/-- Why bytes are no instruction. Both word cases are the one illegal instruction of R63; the names only say
which clause of R63 applies. -/
inductive DecodeError where
  /-- fewer than the four bytes of an instruction word (R58) -/
  | truncated
  /-- an opcode other than the six of R60 -/
  | unknownOpcode
  /-- a known opcode whose `(funct3, funct7)` or `funct3` has no row -/
  | unknownFunct
  deriving DecidableEq, Repr

/-- The decoder handed a table of constants (R7, U8). -/
def decodeWith (t : Encoding) (w : Word) : Except DecodeError Instr :=
  match t.rows.find? (fun r => r.hits w) with
  | some r => .ok (r.mnemonic.build w)
  | none =>
    if t.rows.any (fun r => opcodeField w == r.opcode) then .error .unknownFunct
    else .error .unknownOpcode

/-- The instruction a word stands for, with the constants of R60; an error is an illegal instruction (R63). -/
def decode (w : Word) : Except DecodeError Instr := decodeWith Config.encoding w

/-- A word as memory holds it: little-endian (R37). -/
def wordBytes (w : Word) : List Byte :=
  [w.extractLsb 7 0, w.extractLsb 15 8, w.extractLsb 23 16, w.extractLsb 31 24]

/-- Decoding from bytes, total: the instruction and the bytes after it, or why there is none. Every instruction
is four bytes (R58), in little-endian order (R37). -/
def decodeBytes : List Byte → Except DecodeError (Instr × List Byte)
  | b0 :: b1 :: b2 :: b3 :: rest =>
    match decode (b3 ++ b2 ++ b1 ++ b0) with
    | .ok i => .ok (i, rest)
    | .error e => .error e
  | _ => .error .truncated

/-! ## The encoder (R59, R65) -/

/-- Format R (R59). -/
def formatR (funct7 : BitVec 7) (rs2 rs1 : RegIx) (funct3 : BitVec 3) (rd : RegIx) (opcode : BitVec 7) : Word :=
  funct7 ++ rs2 ++ rs1 ++ funct3 ++ rd ++ opcode

/-- Format I (R59). -/
def formatI (imm : BitVec 12) (rs1 : RegIx) (funct3 : BitVec 3) (rd : RegIx) (opcode : BitVec 7) : Word :=
  imm ++ rs1 ++ funct3 ++ rd ++ opcode

/-- Format S (R59). -/
def formatS (imm : BitVec 12) (rs2 rs1 : RegIx) (funct3 : BitVec 3) (opcode : BitVec 7) : Word :=
  imm.extractLsb 11 5 ++ rs2 ++ rs1 ++ funct3 ++ imm.extractLsb 4 0 ++ opcode

/-- Format B (R59). Bit 0 of the offset has no place in the word. -/
def formatB (off : BitVec 13) (rs2 rs1 : RegIx) (funct3 : BitVec 3) (opcode : BitVec 7) : Word :=
  off.extractLsb 12 12 ++ off.extractLsb 10 5 ++ rs2 ++ rs1 ++ funct3 ++ off.extractLsb 4 1
    ++ off.extractLsb 11 11 ++ opcode

/-- The word of an instruction, with a given table of constants. -/
def encodeWith (t : Encoding) : Instr → Word
  | .add rd rs1 rs2 => formatR t.f7Base rs2 rs1 t.f3AddSub rd t.opcOp
  | .sub rd rs1 rs2 => formatR t.f7Alt rs2 rs1 t.f3AddSub rd t.opcOp
  | .slt rd rs1 rs2 => formatR t.f7Base rs2 rs1 t.f3Slt rd t.opcOp
  | .srl rd rs1 rs2 => formatR t.f7Base rs2 rs1 t.f3Srl rd t.opcOp
  | .or rd rs1 rs2 => formatR t.f7Base rs2 rs1 t.f3Or rd t.opcOp
  | .and rd rs1 rs2 => formatR t.f7Base rs2 rs1 t.f3And rd t.opcOp
  | .addi rd rs1 imm => formatI imm rs1 t.f3Addi rd t.opcOpImm
  | .lw rd rs1 imm => formatI imm rs1 t.f3Lw rd t.opcLoad
  | .sw rs2 rs1 imm => formatS imm rs2 rs1 t.f3Sw t.opcStore
  | .beq rs1 rs2 off => formatB off rs2 rs1 t.f3Beq t.opcBranch
  | .bne rs1 rs2 off => formatB off rs2 rs1 t.f3Bne t.opcBranch
  | .blt rs1 rs2 off => formatB off rs2 rs1 t.f3Blt t.opcBranch
  | .jalr rd rs1 imm => formatI imm rs1 t.f3Jalr rd t.opcJalr

/-- The word of an instruction. -/
def encode (i : Instr) : Word := encodeWith Config.encoding i

/-- The bytes of an instruction, lowest address first. -/
def encodeBytes (i : Instr) : List Byte := wordBytes (encode i)

/-! ## The opcode table's numbering -/

/-- The word of a table row's bits: the low `nbits` bits of `w`, every bit above them 0. -/
def tableWord (nbits w : Nat) : Word := BitVec.ofNat 32 (w % 2 ^ nbits)

/-- What the decoder reads from an instruction whose bits, numbered as spec/opcode_table.json numbers them,
are `w`. -/
def decodeTableWord (nbits w : Nat) : Option Instr :=
  match decodeBytes (wordBytes (tableWord nbits w)) with
  | .ok (i, _) => some i
  | .error _ => none

end Sys2Proof
end

