-- ==== Sys2Proof/Machine/State.lean ====
section
/-!
DEFINITION. The state of the core (10_state.md R10, R22, R26), the stop causes (R144), and the types of faults
and refusals.
-/

namespace Sys2Proof.Machine

/-- The five values of `stop_cause` (R21, R144). -/
inductive StopCause where
  /-- `None`: the core is running -/
  | none
  /-- `PcOutOfCode` (R140) -/
  | pcOutOfCode
  /-- `IllegalInstruction` (R141) -/
  | illegalInstruction
  /-- `VirtualHalt` (R142) -/
  | virtualHalt
  /-- `InstructionCeiling` (R143) -/
  | instructionCeiling
  deriving DecidableEq, Repr

/-- The bytes of memory: addresses strictly rising, and no entry equal to `Config.unlistedByte`
(`Memory.wf` in Machine/Ops.lean says it, Laws/Memory.lean proves it kept). -/
abbrev Memory := List Host.Cell

/-- The whole state (R10). `x[0]` is hardwired and "not storage": no field holds it. -/
structure State where
  /-- `x[1]` .. `x[31]`: register `i` is at place `i - 1` (R11) -/
  regs : Vector Word 31
  /-- the program counter (R14) -/
  pc : Word
  /-- the executed-instruction count (R18) -/
  instret : Nat
  /-- the cycle count (R19) -/
  cycle : Nat
  /-- the halted flag (R20) -/
  halted : Bool
  /-- why the run ended (R21) -/
  stopCause : StopCause
  /-- the byte store (R22) -/
  mem : Memory
  /-- the parameters of R5 and R6: configuration, which no step changes (log 1) -/
  params : Params
  deriving DecidableEq, Repr

/-- The core never faults: "Nothing in this hardware is `any value`, `stuck` or `fault`"
(93_implementation_defined.md section 1). No constructor: nobody raises one (log 6). -/
inductive Fault where
  deriving DecidableEq, Repr

/-- Why the model answers no next state. -/
inductive Refusal where
  /-- Raised by an arm of `exec` for an instruction that has no meaning yet. Safe: nothing is proved of it. -/
  | notModelled (mnemonic : String)
  /-- Raised by `step` when `halted = 1`: "A model must not treat a stopped state as able to step, and must not
  treat it as faulted either" (R148). No instruction is refused by it. Safe: the core takes no step there. -/
  | halted
  /-- Raised by `step` when the parameters break a constraint of R6 or R124 (`MAX_INSTRUCTIONS = 0` among them,
  U5 "refuse"). Safe: the spec describes no machine with such parameters. -/
  | illegalParameters
  deriving DecidableEq, Repr

/-- The machine with parameters `p` right after reset, before the image is loaded (R26). -/
def State.resetWith (p : Params) : State where
  regs := Vector.replicate 31 0#32
  pc := BitVec.ofNat 32 p.codeBase
  instret := 0
  cycle := 0
  halted := false
  stopCause := .none
  mem := []
  params := p

/-- The machine right after reset, with the default parameters (R26, R161). -/
def State.reset : State := State.resetWith Config.defaults

end Sys2Proof.Machine
end

