-- ==== Sys2Proof/Machine/Ops.lean ====
section
/-!
DEFINITION. The named operations over the state: `register_file` (R11, R12), `memory_bounds_checker` (R30 to
R33), the two memory primitives (R34, R35), the commit of a retiring instruction (R122) and `stop`, the one
operation every stop goes through (R145).
-/

namespace Sys2Proof.Machine

/-! ## The register file (R11, R12) -/

/-- Where register `i`, not register 0, stands in `State.regs`. -/
def regSlot (i : RegIx) (h : i ≠ 0#5) : Fin 31 :=
  ⟨i.toNat - 1, by
    have h1 := i.isLt
    have h2 : i.toNat ≠ 0 := fun e => h (BitVec.eq_of_toNat_eq e)
    omega⟩

/-- `x[i]`: register 0 reads 0 always (R11). -/
def readReg (s : State) (i : RegIx) : Word :=
  if h : i = 0#5 then 0#32 else s.regs[regSlot i h]

/-- `x[i] <- v`: a write to register 0 has no effect on any state (R12). -/
def writeReg (s : State) (i : RegIx) (v : Word) : State :=
  if h : i = 0#5 then s else { s with regs := s.regs.set (regSlot i h) v }

/-! ## Regions and the bounds check (R30 to R33) -/

/-- `InCode(a)` (R30). -/
def inCode (p : Params) (a : Nat) : Bool := decide (p.codeBase ≤ a) && decide (a < p.codeEnd)

/-- `InStack(a)` (R30). -/
def inStack (p : Params) (a : Nat) : Bool := decide (p.stackBase ≤ a) && decide (a < p.stackEnd)

/-- `InData(a)` (R30). -/
def inData (p : Params) (a : Nat) : Bool := decide (p.dataBase ≤ a) && decide (a < p.dataEnd)

/-- `InRegion(a)` (R30). -/
def inRegion (p : Params) (a : Nat) : Bool := inCode p a || inStack p a || inData p a

/-- `Valid(addr, n)` (R32): every byte in some region, the sum `addr + i` over the integers. -/
def valid (p : Params) (addr : Word) (n : Nat) : Bool :=
  (List.range n).all fun i => decide (addr.toNat + i < 2 ^ 32) && inRegion p (addr.toNat + i)

/-! ## The byte store (R22) -/

/-- The canonical form: addresses strictly rising, no entry equal to what an unlisted address reads as. -/
abbrev Memory.wf (m : Memory) : Prop :=
  m.Pairwise (fun c d => c.1 < d.1) ∧ ∀ c ∈ m, c.2 ≠ Config.unlistedByte

/-- The byte at address `a`. -/
def Memory.byte : Memory → Nat → Byte
  | [], _ => Config.unlistedByte
  | c :: m, a => if c.1 = a then c.2 else Memory.byte m a

/-- One entry in canonical form: none when the byte is what an unlisted address reads as. -/
def Memory.entry (a : Nat) (b : Byte) : Memory := if b = Config.unlistedByte then [] else [(a, b)]

/-- `mem[a] <- b`, keeping the canonical form. -/
def Memory.set : Memory → Nat → Byte → Memory
  | [], a, b => Memory.entry a b
  | c :: m, a, b =>
    if a < c.1 then Memory.entry a b ++ c :: m
    else if a = c.1 then Memory.entry a b ++ m
    else c :: Memory.set m a b

/-- The sum of R34: `n` bytes from `a`, the lowest address least significant. -/
def Memory.readBytes (m : Memory) (a : Nat) : Nat → Nat
  | 0 => 0
  | n + 1 => (Memory.byte m a).toNat + 256 * Memory.readBytes m (a + 1) n

/-- The loop of R35: the low `n` bytes of `v`, the least significant at `a`. -/
def Memory.writeBytes (m : Memory) (a : Nat) : Nat → Nat → Memory
  | 0, _ => m
  | n + 1, v => Memory.writeBytes (Memory.set m a (BitVec.ofNat 8 v)) (a + 1) n (v / 256)

/-- `MemRead(addr, n)` (R34): 0 when not valid. -/
def memRead (s : State) (addr : Word) (n : Nat) : Nat :=
  if valid s.params addr n then Memory.readBytes s.mem addr.toNat n else 0

/-- `MemWrite(addr, n, v)` (R35): nothing when not valid. -/
def memWrite (s : State) (addr : Word) (n v : Nat) : State :=
  if valid s.params addr n then { s with mem := Memory.writeBytes s.mem addr.toNat n v } else s

/-- `MemRead(addr, 4)` as a word: the one size the hardware reads (R34, R39). -/
def readWord (s : State) (addr : Word) : Word := BitVec.ofNat 32 (memRead s addr 4)

/-- `MemWrite(addr, 4, v)` of a word: the one size the hardware writes (R35, R39). -/
def writeWord (s : State) (addr : Word) (v : Word) : State := memWrite s addr 4 v.toNat

/-! ## Commit (R120, R122) -/

/-- The record of its effects that dispatch returns for an instruction (R120). -/
structure Effects where
  /-- at most one register write -/
  regWrite : Option (RegIx × Word)
  /-- at most one 4-byte store: effective address and value -/
  store : Option (Word × Word)
  /-- the absolute next pc, always present -/
  nextPc : Word
  deriving DecidableEq, Repr

/-- `if r.store = (ea, v): MemWrite(ea, 4, v)` (R122). -/
def commitStore (s : State) : Option (Word × Word) → State
  | some (ea, v) => writeWord s ea v
  | none => s

/-- `if r.rd_write: x[r.rd] <- r.rd_value` (R122). -/
def commitReg (s : State) : Option (RegIx × Word) → State
  | some (rd, v) => writeReg s rd v
  | none => s

/-- The pc and the counters at commit (R122: the pc is assigned, both counters go up by 1). -/
def commitPc (s : State) (nextPc : Word) : State :=
  { s with pc := nextPc, instret := s.instret + 1, cycle := s.cycle + 1 }

/-- Commit (R122), the five updates of a retiring instruction. -/
def commit (r : Effects) (s : State) : State :=
  commitPc (commitReg (commitStore s r.store) r.regWrite) r.nextPc

/-! ## Stops (R144, R145) -/

/-- `stop c` (R145): sets `halted` and `stop_cause`, nothing else. -/
def stop (c : StopCause) (s : State) : State := { s with halted := true, stopCause := c }

/-- The cause codes of R144 (the spec's own numbers, D10). -/
def StopCause.code : StopCause → Nat
  | .none => 0
  | .pcOutOfCode => 1
  | .illegalInstruction => 2
  | .virtualHalt => 3
  | .instructionCeiling => 4

end Sys2Proof.Machine
end

