-- ==== Sys2Proof/Machine/Operands.lean ====
section
/-!
DEFINITION. The operand forms: addresses and next-pc values computed from registers, immediates and the pc
(R15, R97, R103, R110), and the retirements the instructions share, one for each shape of effect record (R120).
-/

namespace Sys2Proof.Machine

/-- `(pc + 4) mod 2^32` (R15). -/
def sequentialPc (s : State) : Word := s.pc + 4#32

/-- `(x[rs1] + imm) mod 2^32`, base register plus sign-extended displacement, the only addressing mode (R97, D8). -/
def effectiveAddress (s : State) (rs1 : RegIx) (imm : BitVec 12) : Word := readReg s rs1 + sext imm

/-- `(pc + B-imm) mod 2^32`, relative to the branch itself (R103). -/
def branchTarget (s : State) (off : BitVec 13) : Word := s.pc + sext off

/-- `((x[rs1] + I-imm) mod 2^32) & 0xFFFFFFFE` (R110). -/
def jumpTarget (s : State) (rs1 : RegIx) (imm : BitVec 12) : Word :=
  effectiveAddress s rs1 imm &&& 0xFFFFFFFE#32

/-- `x[rs2][4:0]`, the shift amount (R83, D4). -/
def shiftAmount (v : Word) : Nat := (v.extractLsb 4 0).toNat

/-- Retire with a register write and `pc + 4`: the register-register group, `addi`, `lw` (R120). -/
def retireReg (rd : RegIx) (v : Word) (s : State) : Host.Outcome State Fault Refusal :=
  .next (commit { regWrite := some (rd, v), store := none, nextPc := sequentialPc s } s)

/-- Retire with a store and `pc + 4`: `sw` (R120). -/
def retireStore (ea v : Word) (s : State) : Host.Outcome State Fault Refusal :=
  .next (commit { regWrite := none, store := some (ea, v), nextPc := sequentialPc s } s)

/-- Retire a branch: the target when taken, else `pc + 4`; no register write, no store (R103, R120). -/
def retireBranch (taken : Bool) (off : BitVec 13) (s : State) : Host.Outcome State Fault Refusal :=
  .next (commit { regWrite := none, store := none,
                  nextPc := if taken then branchTarget s off else sequentialPc s } s)

/-- Retire a jump: the link `pc + 4` to `rd`, the pc to the target (R110, R120). -/
def retireJump (rd : RegIx) (target : Word) (s : State) : Host.Outcome State Fault Refusal :=
  .next (commit { regWrite := some (rd, sequentialPc s), store := none, nextPc := target } s)

end Sys2Proof.Machine
end

