-- ==== Sys2Proof/Machine/Cycle.lean ====
section
/-!
DEFINITION. The parts of the step around an instruction (45_step_cycle.md R117): fetch (R118), the two tests
after the commit (R123, R124), and the placing of a word where the next step fetches.
-/

namespace Sys2Proof.Machine

/-- Line 2: the word at the pc, by the same checked little-endian read that `lw` uses (R118). -/
def fetch (s : State) : Word := readWord s s.pc

/-- Lines 6 and 7: the halt-word test on the word fetched in this step, then the ceiling test on the updated
`instret` (R117, R123, R124, R142, R143). -/
def afterCommit (w : Word) (s : State) : State :=
  if w = Config.haltWord then stop .virtualHalt s
  else if s.params.maxInstructions ≤ s.instret then stop .instructionCeiling s
  else s

/-- The tests of lines 6 and 7 after an instruction that retired. -/
def finishStep (w : Word) : Host.Outcome State Fault Refusal → Host.Outcome State Fault Refusal
  | .next t => .next (afterCommit w t)
  | .fault r => .fault r
  | .refused r => .refused r

/-- The state made able to step: admitted parameters, running, the pc in the code region; unchanged where the
state already is (log 7). -/
def readyToFetch (s : State) : State :=
  let s1 := if s.params.wellFormed then s else { s with params := Config.defaults }
  let s2 := if s1.halted then { s1 with halted := false, stopCause := .none } else s1
  if inCode s2.params s2.pc.toNat then s2 else { s2 with pc := BitVec.ofNat 32 s2.params.codeBase }

/-- The word `w` stored where the next step fetches (log 7: stands for the host's image load, R163). -/
def placeFetchWord (s : State) (w : Word) : State :=
  writeWord (readyToFetch s) (readyToFetch s).pc w

end Sys2Proof.Machine
end

