-- ==== Sys2Proof/Machine/Flags.lean ====
section
/-!
DEFINITION. The hardware has no flags (R23): a comparison is written to a register by `slt` or consumed by the
branch that makes it. These are the comparisons.
-/

namespace Sys2Proof.Machine

/-- `a = b` on the 32-bit patterns (R100). -/
def condEq (a b : Word) : Bool := a == b

/-- `a != b` on the 32-bit patterns (R101). -/
def condNe (a b : Word) : Bool := a != b

/-- `signed(a) < signed(b)`, exact over the whole domain (R82; R102 by D3). -/
def condLt (a b : Word) : Bool := a.slt b

/-- The 32-bit result of a comparison, 0x00000001 or 0x00000000 (R82). -/
def boolWord (c : Bool) : Word := if c then 1#32 else 0#32

end Sys2Proof.Machine
end

