-- ==== Sys2Proof/Machine/Branch.lean ====
section
/-!
DEFINITION. Conditional branches (43_branch.md R100 to R103).
-/

namespace Sys2Proof.Machine

/-- Branch if equal (R100). -/
def execBeq (rs1 rs2 : RegIx) (off : BitVec 13) (s : State) : Host.Outcome State Fault Refusal :=
  retireBranch (condEq (readReg s rs1) (readReg s rs2)) off s

/-- Branch if not equal (R101). -/
def execBne (rs1 rs2 : RegIx) (off : BitVec 13) (s : State) : Host.Outcome State Fault Refusal :=
  retireBranch (condNe (readReg s rs1) (readReg s rs2)) off s

/-- Branch if less than, signed (R102; the signed reading is the spec's D3, log 8). -/
def execBlt (rs1 rs2 : RegIx) (off : BitVec 13) (s : State) : Host.Outcome State Fault Refusal :=
  retireBranch (condLt (readReg s rs1) (readReg s rs2)) off s

end Sys2Proof.Machine
end

