-- ==== Sys2Proof/Machine/Jump.lean ====
section
/-!
DEFINITION. Indirect jump and link (44_jump.md R110).
-/

namespace Sys2Proof.Machine

/-- `x[rd] <- (pc + 4) mod 2^32; pc <- (x[rs1] + I-imm) & 0xFFFFFFFE`, the target from the old `x[rs1]` (R110, D9). -/
def execJalr (rd rs1 : RegIx) (imm : BitVec 12) (s : State) : Host.Outcome State Fault Refusal :=
  retireJump rd (jumpTarget s rs1 imm) s

end Sys2Proof.Machine
end

