-- ==== Sys2Proof/Machine/LoadStore.lean ====
section
/-!
DEFINITION. Loads and stores (42_load_store.md R95 to R99).
-/

namespace Sys2Proof.Machine

/-- `x[rd] <- MemRead(ea, 4)`: 0 when the address is invalid, and the instruction retires all the same (R95). -/
def execLw (rd rs1 : RegIx) (imm : BitVec 12) (s : State) : Host.Outcome State Fault Refusal :=
  retireReg rd (readWord s (effectiveAddress s rs1 imm)) s

/-- `MemWrite(ea, 4, x[rs2])`: nothing when the address is invalid, and the instruction retires all the same (R96). -/
def execSw (rs2 rs1 : RegIx) (imm : BitVec 12) (s : State) : Host.Outcome State Fault Refusal :=
  retireStore (effectiveAddress s rs1 imm) (readReg s rs2) s

end Sys2Proof.Machine
end

