-- ==== Sys2Proof/Machine/RegImm.lean ====
section
/-!
DEFINITION. The register-immediate instruction (41_reg_imm.md R90).
-/

namespace Sys2Proof.Machine

/-- `x[rd] <- (x[rs1] + I-imm) mod 2^32` (R90). -/
def execAddi (rd rs1 : RegIx) (imm : BitVec 12) (s : State) : Host.Outcome State Fault Refusal :=
  retireReg rd (readReg s rs1 + sext imm) s

end Sys2Proof.Machine
end

