-- ==== Sys2Proof/Machine/RegReg.lean ====
section
/-!
DEFINITION. The register-register group (40_reg_reg.md R80 to R87).
-/

namespace Sys2Proof.Machine

/-- `x[rd] <- (x[rs1] + x[rs2]) mod 2^32` (R80). -/
def execAdd (rd rs1 rs2 : RegIx) (s : State) : Host.Outcome State Fault Refusal :=
  retireReg rd (readReg s rs1 + readReg s rs2) s

/-- `x[rd] <- (x[rs1] - x[rs2]) mod 2^32` (R81). -/
def execSub (rd rs1 rs2 : RegIx) (s : State) : Host.Outcome State Fault Refusal :=
  retireReg rd (readReg s rs1 - readReg s rs2) s

/-- `x[rd] <- 1 if signed(x[rs1]) < signed(x[rs2]) else 0` (R82). -/
def execSlt (rd rs1 rs2 : RegIx) (s : State) : Host.Outcome State Fault Refusal :=
  retireReg rd (boolWord (condLt (readReg s rs1) (readReg s rs2))) s

/-- `x[rd] <- x[rs1] >> x[rs2][4:0]`, zeros entering at bit 31 (R83). -/
def execSrl (rd rs1 rs2 : RegIx) (s : State) : Host.Outcome State Fault Refusal :=
  retireReg rd (readReg s rs1 >>> shiftAmount (readReg s rs2)) s

/-- `x[rd] <- x[rs1] | x[rs2]` (R84). -/
def execOr (rd rs1 rs2 : RegIx) (s : State) : Host.Outcome State Fault Refusal :=
  retireReg rd (readReg s rs1 ||| readReg s rs2) s

/-- `x[rd] <- x[rs1] & x[rs2]` (R85). -/
def execAnd (rd rs1 rs2 : RegIx) (s : State) : Host.Outcome State Fault Refusal :=
  retireReg rd (readReg s rs1 &&& readReg s rs2) s

end Sys2Proof.Machine
end

