-- ==== Sys2Proof/Machine/Step.lean ====
section
/-!
DEFINITION. One step of the core (45_step_cycle.md R117).
-/

namespace Sys2Proof.Machine

/-- Lines 3 to 7, for the word fetched: an illegal instruction stops with nothing committed (R141), a legal one
is executed and then tested for the halt word and the ceiling. -/
def runWord (w : Word) (s : State) : Host.Outcome State Fault Refusal :=
  match decode w with
  | .error _ => .next (stop .illegalInstruction s)
  | .ok i => finishStep w (exec i s)

/-- One step (R117). A stop is a next state, `halted` set (R145). A halted core takes no step (R20, R148), and
no machine has parameters that break R6 or R124: both are refusals. -/
def step (s : State) : Host.Outcome State Fault Refusal :=
  if s.halted then .refused .halted
  else if !s.params.wellFormed then .refused .illegalParameters
  else if !inCode s.params s.pc.toNat then .next (stop .pcOutOfCode s)
  else runWord (fetch s) s

/-- The state whose very next step fetches the table word `w` of `nbits` bits. -/
def State.withFetchWord (s : State) (nbits w : Nat) : State := placeFetchWord s (tableWord nbits w)

end Sys2Proof.Machine
end

