-- ==== Sys2Proof/Machine/Boot.lean ====
section
/-!
DEFINITION. What the host does between reset and the first step: the image (70_reset_and_hazards.md R163, R164).
-/

namespace Sys2Proof.Machine

/-- The loop of R163: successive words at consecutive 4-byte-aligned addresses from `a`. -/
def writeImage (s : State) (a : Nat) : List Word → State
  | [] => s
  | w :: img => writeImage (writeWord s (BitVec.ofNat 32 a) w) (a + 4) img

/-- Image load (R163), refused when the image is longer than the code region (R164, D14). -/
def loadImage (s : State) (img : List Word) : Option State :=
  if 4 * img.length ≤ s.params.codeSize then some (writeImage s s.params.codeBase img) else none

/-- Reset with parameters `p`, then the image: the state at a run's first step (R125, R168). None when the host
may not choose these parameters (R6, R124) or this image (R164). -/
def boot (p : Params) (img : List Word) : Option State :=
  if p.wellFormed then loadImage (State.resetWith p) img else none

end Sys2Proof.Machine
end

