-- ==== Sys2Proof/Machine/Observe.lean ====
section
/-!
DEFINITION. What the host samples of the state: trace records (70_reset_and_hazards.md R166) and the dump (R167).
They are functions of the state, not state (R25).
-/

namespace Sys2Proof.Machine

/-- One trace record: the post-step pc, then all 32 registers (R166). -/
structure TraceRecord where
  pc : Word
  regs : List Word
  deriving DecidableEq, Repr

/-- `(pc, x[0], x[1], .., x[31])` of a state (R166). -/
def traceRecord (s : State) : TraceRecord where
  pc := s.pc
  regs := (List.range 32).map fun i => readReg s (BitVec.ofNat 5 i)

/-- The record of one step: one when an instruction retired in it, none otherwise (R166). -/
def stepRecord (s : State) : Option TraceRecord :=
  match step s with
  | .next t => if t.instret = s.instret then none else some (traceRecord t)
  | .fault _ => none
  | .refused _ => none

/-- The records of the first `k` steps, in program order (R166). -/
def traceOf : Nat → State → List TraceRecord
  | 0, _ => []
  | k + 1, s =>
    match step s with
    | .next t => (stepRecord s).toList ++ traceOf k t
    | .fault _ => []
    | .refused _ => []

/-- Every word of one region, in address order. -/
def regionWords (s : State) (base size : Nat) : List Word :=
  (List.range (size / 4)).map fun k => readWord s (BitVec.ofNat 32 (base + 4 * k))

/-- The dump: every word of code, then of stack, then of data (R167). -/
def dump (s : State) : List Word :=
  regionWords s s.params.codeBase s.params.codeSize
    ++ regionWords s s.params.stackBase s.params.stackSize
    ++ regionWords s s.params.dataBase s.params.dataSize

end Sys2Proof.Machine
end

