-- ==== Sys2Proof/Safety.lean ====
section
/-!
DEFINITION. The terms claims are stated in: the invariant of every run, a running state, what a retirement
leaves unchanged, and the signed and numeric readings of 00_scope.md R9.
-/

namespace Sys2Proof.Machine

/-- `signed(v)` of R9: `v` if `v < 2^31`, else `v - 2^32`. -/
def signed (v : Word) : Int := if v.toNat < 2 ^ 31 then (v.toNat : Int) else (v.toNat : Int) - 2 ^ 32

/-- The value modulo 2^32 of an integer, as R9 writes it into 32 bits. -/
def modWord (x : Int) : Word := BitVec.ofInt 32 x

/-- A state that can take a step (R117's precondition), with parameters the spec admits (R6, R124). -/
structure Running (s : State) : Prop where
  notHalted : s.halted = false
  params : s.params.wellFormed = true

/-- What holds of every state of a run: the parameters are admitted; memory is canonical and lists only bytes
that are state (R22); the pc is even (R16); `cycle = instret` (R19); `stop_cause` is `None` exactly while
`halted = 0` (R21); and `instret` stays under the ceiling while running and never exceeds it (R18, R124). -/
structure Inv (s : State) : Prop where
  params : s.params.wellFormed = true
  memCanonical : Memory.wf s.mem
  memInRegions : ∀ c ∈ s.mem, inRegion s.params c.1 = true
  pcEven : s.pc.toNat % 2 = 0
  counters : s.cycle = s.instret
  cause : s.stopCause = .none ↔ s.halted = false
  ceiling : s.instret ≤ s.params.maxInstructions
  budget : s.halted = false → s.instret < s.params.maxInstructions

/-- Every register reads as before but `rd`, and register 0 reads 0. -/
def OnlyReg (rd : RegIx) (s t : State) : Prop :=
  (∀ r, r ≠ rd → readReg t r = readReg s r) ∧ readReg t 0#5 = 0#32

/-- Every register reads as before. -/
def SameRegs (s t : State) : Prop := ∀ r, readReg t r = readReg s r

/-- Every byte of memory reads as before. -/
def SameMem (s t : State) : Prop := ∀ a : Nat, Memory.byte t.mem a = Memory.byte s.mem a

/-- Every byte of memory outside the `n` bytes from `a` reads as before. -/
def SameMemOutside (a n : Nat) (s t : State) : Prop :=
  ∀ b : Nat, b < a ∨ a + n ≤ b → Memory.byte t.mem b = Memory.byte s.mem b

/-- What a retirement does beside its own effect: both counters go up by 1 (R122); `halted`, `stop_cause` and
the parameters stay. -/
structure Retired (s t : State) : Prop where
  instret : t.instret = s.instret + 1
  cycle : t.cycle = s.cycle + 1
  halted : t.halted = s.halted
  stopCause : t.stopCause = s.stopCause
  params : t.params = s.params

/-- The register an instruction writes (R13, column "writes"). -/
def destOf : Instr → Option RegIx
  | .add rd _ _ => some rd
  | .sub rd _ _ => some rd
  | .slt rd _ _ => some rd
  | .srl rd _ _ => some rd
  | .or rd _ _ => some rd
  | .and rd _ _ => some rd
  | .addi rd _ _ => some rd
  | .lw rd _ _ => some rd
  | .sw _ _ _ => none
  | .beq _ _ _ => none
  | .bne _ _ _ => none
  | .blt _ _ _ => none
  | .jalr rd _ _ => some rd

/-- The registers an instruction reads (R13, column "reads"). -/
def sourcesOf : Instr → List RegIx
  | .add _ rs1 rs2 => [rs1, rs2]
  | .sub _ rs1 rs2 => [rs1, rs2]
  | .slt _ rs1 rs2 => [rs1, rs2]
  | .srl _ rs1 rs2 => [rs1, rs2]
  | .or _ rs1 rs2 => [rs1, rs2]
  | .and _ rs1 rs2 => [rs1, rs2]
  | .addi _ rs1 _ => [rs1]
  | .lw _ rs1 _ => [rs1]
  | .sw rs2 rs1 _ => [rs1, rs2]
  | .beq rs1 rs2 _ => [rs1, rs2]
  | .bne rs1 rs2 _ => [rs1, rs2]
  | .blt rs1 rs2 _ => [rs1, rs2]
  | .jalr _ rs1 _ => [rs1]

/-- `exec` answers a next state in which `rd` holds `v` (nothing is written when `rd` is register 0), no other
register and no byte of memory changed, the pc went to `pc + 4` modulo 2^32 and the instruction retired. -/
def WritesReg (i : Instr) (rd : RegIx) (v : Word) (s : State) : Prop :=
  ∃ t, exec i s = .next t ∧ (rd ≠ 0#5 → readReg t rd = v) ∧ OnlyReg rd s t ∧ SameMem s t
    ∧ t.pc = modWord ((s.pc.toNat : Int) + 4) ∧ Retired s t

/-- `exec` answers a next state in which the pc went to `pc + off` modulo 2^32 if `taken` holds and to `pc + 4`
otherwise; no register and no byte of memory changed, and the instruction retired. -/
def Branches (i : Instr) (taken : Prop) (off : BitVec 13) (s : State) : Prop :=
  ∃ t, exec i s = .next t ∧ (taken → t.pc = modWord ((s.pc.toNat : Int) + off.toInt))
    ∧ (¬ taken → t.pc = modWord ((s.pc.toNat : Int) + 4)) ∧ SameRegs s t ∧ SameMem s t ∧ Retired s t

/-- The words with these bits under this mask are exactly those that decode to the instruction `i` makes of
their fields. -/
def EncodedBy (mask pattern : Word) (i : Word → Instr) : Prop :=
  ∀ w : Word, w &&& mask = pattern ↔ decode w = .ok (i w)

/-- The pc is inside the code region (R140). -/
def PcInCode (s : State) : Prop :=
  s.params.codeBase ≤ s.pc.toNat ∧ s.pc.toNat < s.params.codeBase + s.params.codeSize

/-- The four bytes at the pc, lowest address first. -/
def bytesAtPc (s : State) : List Byte :=
  [Memory.byte s.mem s.pc.toNat, Memory.byte s.mem (s.pc.toNat + 1), Memory.byte s.mem (s.pc.toNat + 2),
    Memory.byte s.mem (s.pc.toNat + 3)]

/-- The bits of a 32-bit pattern, bit `k` given by `f k`. -/
def HasBits (v : Word) (f : Nat → Bool) : Prop := ∀ k < 32, v.getLsbD k = f k

/-- The masks and matches of R61, as the rule prints them. -/
def opcodeMap : List (Mnemonic × Word × Word) :=
  [(.add, 0xFE00707F#32, 0x00000033#32), (.sub, 0xFE00707F#32, 0x40000033#32),
   (.slt, 0xFE00707F#32, 0x00002033#32), (.srl, 0xFE00707F#32, 0x00005033#32),
   (.or, 0xFE00707F#32, 0x00006033#32), (.and, 0xFE00707F#32, 0x00007033#32),
   (.addi, 0x0000707F#32, 0x00000013#32), (.lw, 0x0000707F#32, 0x00002003#32),
   (.sw, 0x0000707F#32, 0x00002023#32), (.beq, 0x0000707F#32, 0x00000063#32),
   (.bne, 0x0000707F#32, 0x00001063#32), (.blt, 0x0000707F#32, 0x00004063#32),
   (.jalr, 0x0000707F#32, 0x00000067#32)]

end Sys2Proof.Machine
end

