-- ==== Sys2Proof/Certificates/Slice0/Obligations.lean ====
section
/-!
DEFINITION. The statements about the model. Each docstring names the rule of spec/ it formalises; `D<n>` is a
decision of spec/92_eei_decisions.md, `log <n>` is notes/assumptions/<n>.md. The numeric opcode, funct3, funct7,
mask and match values are those the rules give (R60, R61), which the spec took from general knowledge (D2, log 2).
-/

open Sys2Proof Sys2Proof.Machine

/-! ## Reset and registers -/

/-- R26, R161: the state after reset, for every choice of parameters. That memory bytes are 0 is the spec's
decision D13 (log 5); the pc is `CODE_BASE` by C7. -/
def Obligations.ResetLeavesEverythingZero : Prop :=
  (∀ p : Params,
    (∀ i, readReg (State.resetWith p) i = 0#32) ∧ (State.resetWith p).pc = BitVec.ofNat 32 p.codeBase
      ∧ (State.resetWith p).instret = 0 ∧ (State.resetWith p).cycle = 0 ∧ (State.resetWith p).halted = false
      ∧ (State.resetWith p).stopCause = .none ∧ (∀ a, Memory.byte (State.resetWith p).mem a = 0#8)
      ∧ (State.resetWith p).params = p)
    ∧ State.reset = State.resetWith Config.defaults

/-- R11, R12: a read gives the last value written, a write touches one register, register 0 reads 0 and a write
to it has no effect on any state; an instruction whose destination is register 0 still performs its other effects
(a `jalr` still jumps, a `lw` discards the loaded value). -/
def Obligations.RegisterFileReadsAndWrites : Prop :=
  ∀ s : State, readReg s 0#5 = 0#32
    ∧ (∀ v, writeReg s 0#5 v = s)
    ∧ (∀ p i, readReg (State.resetWith p) i = 0#32)
    ∧ (∀ i v, i ≠ 0#5 → readReg (writeReg s i v) i = v)
    ∧ (∀ i j v, j ≠ i → readReg (writeReg s i v) j = readReg s j)
    ∧ (∀ i v, (writeReg s i v).pc = s.pc ∧ (writeReg s i v).mem = s.mem
        ∧ (writeReg s i v).instret = s.instret ∧ (writeReg s i v).cycle = s.cycle
        ∧ (writeReg s i v).halted = s.halted ∧ (writeReg s i v).stopCause = s.stopCause
        ∧ (writeReg s i v).params = s.params)
    ∧ (∀ rs1 imm, ∃ t, exec (.jalr 0#5 rs1 imm) s = .next t ∧ SameRegs s t ∧ t.pc = jumpTarget s rs1 imm
        ∧ Retired s t)
    ∧ (∀ rs1 imm, ∃ t, exec (.lw 0#5 rs1 imm) s = .next t ∧ SameRegs s t ∧ SameMem s t
        ∧ t.pc = sequentialPc s ∧ Retired s t)

/-- R13: a register an instruction does not name as destination keeps its value, and what an instruction leaves
in its destination, the pc and memory depends on no register but its sources, as they were before it (R121, the
spec's decision D9, log 13). -/
def Obligations.RegisterAccessFollowsTable : Prop :=
  (∀ (i : Instr) (s t : State) (r : RegIx), exec i s = .next t → destOf i ≠ some r →
      readReg t r = readReg s r)
    ∧ (∀ (i : Instr) (s₁ s₂ t₁ t₂ : State), s₁.pc = s₂.pc → s₁.params = s₂.params → s₁.mem = s₂.mem →
        (∀ r ∈ sourcesOf i, readReg s₁ r = readReg s₂ r) → exec i s₁ = .next t₁ → exec i s₂ = .next t₂ →
        t₁.pc = t₂.pc ∧ t₁.mem = t₂.mem ∧ ∀ r, destOf i = some r → readReg t₁ r = readReg t₂ r)

/-! ## Memory -/

/-- R30, R32: an access is valid exactly when each of its bytes is below 2^32, the sum not wrapped (D23), and in
one of the three regions. -/
def Obligations.BoundsCheckIsByteByByte : Prop :=
  ∀ (p : Params) (a : Word) (n : Nat), valid p a n = true ↔
    ∀ i < n, a.toNat + i < 2 ^ 32 ∧
      ((p.codeBase ≤ a.toNat + i ∧ a.toNat + i < p.codeBase + p.codeSize)
        ∨ (p.stackBase ≤ a.toNat + i ∧ a.toNat + i < p.stackBase + p.stackSize)
        ∨ (p.dataBase ≤ a.toNat + i ∧ a.toNat + i < p.dataBase + p.dataSize))

/-- R33 (the spec's decision D7): an access of any size is valid exactly when it lies in the code-and-stack band,
spanning the two included, or in the data band; none reaches across the gap. -/
def Obligations.SpanningAccessIsValid : Prop :=
  ∀ (p : Params) (a : Word) (n : Nat), p.wellFormed = true → 0 < n →
    (valid p a n = true ↔
      (p.codeBase ≤ a.toNat ∧ a.toNat + n ≤ p.stackBase + p.stackSize)
        ∨ (p.dataBase ≤ a.toNat ∧ a.toNat + n ≤ p.dataBase + p.dataSize))

/-- R34: a valid read is the little-endian sum of the bytes, below 2^(8n); an invalid read is 0. A read is a
function to a number: it changes no state. -/
def Obligations.ReadIsLittleEndianSum : Prop :=
  ∀ (s : State) (a : Word) (n : Nat),
    (valid s.params a n = true →
        memRead s a n = ∑ i ∈ Finset.range n, (Memory.byte s.mem (a.toNat + i)).toNat * 2 ^ (8 * i))
      ∧ (valid s.params a n = false → memRead s a n = 0)
      ∧ memRead s a n < 2 ^ (8 * n)

/-- R35: a valid write puts byte `i` of the value at `addr + i` and changes no other byte and no other state; an
invalid write changes nothing at all. -/
def Obligations.WriteStoresLowBytes : Prop :=
  ∀ (s : State) (a : Word) (n v : Nat), Memory.wf s.mem →
    (valid s.params a n = false → memWrite s a n v = s)
      ∧ (valid s.params a n = true →
          (∀ i < n, Memory.byte (memWrite s a n v).mem (a.toNat + i) = BitVec.ofNat 8 ((v >>> (8 * i)) &&& 0xFF))
            ∧ SameMemOutside a.toNat n s (memWrite s a n v)
            ∧ SameRegs s (memWrite s a n v) ∧ (memWrite s a n v).pc = s.pc
            ∧ (memWrite s a n v).instret = s.instret ∧ (memWrite s a n v).cycle = s.cycle
            ∧ (memWrite s a n v).halted = s.halted ∧ (memWrite s a n v).stopCause = s.stopCause
            ∧ (memWrite s a n v).params = s.params)

/-- R36, for any number of bytes: after a valid write the same read gives the value modulo 2^(8n), until another
write touches one of its bytes; at an invalid address a read gives 0 before and after any write there. -/
def Obligations.WriteThenReadRoundTrip : Prop :=
  ∀ (s : State) (a : Word) (n v : Nat), Memory.wf s.mem →
    (valid s.params a n = true →
        memRead (memWrite s a n v) a n = v % 2 ^ (8 * n)
          ∧ ∀ (b : Word) (m x : Nat), b.toNat + m ≤ a.toNat ∨ a.toNat + n ≤ b.toNat →
              memRead (memWrite (memWrite s a n v) b m x) a n = v % 2 ^ (8 * n))
      ∧ (valid s.params a n = false →
          memRead s a n = 0 ∧ memRead (memWrite s a n v) a n = 0 ∧ SameMem s (memWrite s a n v))

/-- R37: a word stored at `a` has bits 7 to 0 at `a` up to bits 31 to 24 at `a + 3`; a word read is its four bytes
in that order, for `lw` and for fetch alike; and a word read at `a + 1` sees bytes 1 to 3 of the word stored at
`a` as its low three bytes and the byte at `a + 4` as its top. -/
def Obligations.WordsAreLittleEndian : Prop :=
  ∀ (s : State) (a v : Word), Memory.wf s.mem → valid s.params a 4 = true →
    (Memory.byte (writeWord s a v).mem a.toNat = v.extractLsb 7 0
      ∧ Memory.byte (writeWord s a v).mem (a.toNat + 1) = v.extractLsb 15 8
      ∧ Memory.byte (writeWord s a v).mem (a.toNat + 2) = v.extractLsb 23 16
      ∧ Memory.byte (writeWord s a v).mem (a.toNat + 3) = v.extractLsb 31 24)
    ∧ (readWord s a).toNat = (Memory.byte s.mem a.toNat).toNat
        + (Memory.byte s.mem (a.toNat + 1)).toNat * 2 ^ 8
        + (Memory.byte s.mem (a.toNat + 2)).toNat * 2 ^ 16
        + (Memory.byte s.mem (a.toNat + 3)).toNat * 2 ^ 24
    ∧ (s.pc = a → fetch s = readWord s a)
    ∧ (valid s.params (a + 1#32) 4 = true →
        (readWord (writeWord s a v) (a + 1#32)).toNat
          = v.toNat / 2 ^ 8 + (Memory.byte s.mem (a.toNat + 4)).toNat * 2 ^ 24)

/-- The model's own form of memory (log 5): every memory operation and the image load keep the list canonical. -/
def Obligations.MemoryOperationsKeepCanonicalForm : Prop :=
  (∀ (m : Memory) (a : Nat) (b : Byte), Memory.wf m → Memory.wf (Memory.set m a b))
    ∧ (∀ (s : State) (a : Word) (n v : Nat), Memory.wf s.mem → Memory.wf (memWrite s a n v).mem)
    ∧ (∀ (s t : State) (img : List Word), Memory.wf s.mem → loadImage s img = some t → Memory.wf t.mem)
    ∧ (∀ (i : Instr) (s t : State), Memory.wf s.mem → exec i s = .next t → Memory.wf t.mem)

/-- The canonical form does its work: canonical memories that read alike at every address are equal (log 5). -/
def Obligations.CanonicalMemoriesThatReadAlikeAreEqual : Prop :=
  ∀ m₁ m₂ : Memory, Memory.wf m₁ → Memory.wf m₂ → (∀ a, Memory.byte m₁ a = Memory.byte m₂ a) → m₁ = m₂

/-! ## The register-register group and addi -/

/-- R80. -/
def Obligations.AddWritesSum : Prop :=
  (∀ (rd rs1 rs2 : RegIx) (s : State), WritesReg (.add rd rs1 rs2) rd
      (modWord ((readReg s rs1).toNat + (readReg s rs2).toNat)) s)
    ∧ EncodedBy 0xFE00707F#32 0x00000033#32 fun w => .add (rdField w) (rs1Field w) (rs2Field w)

/-- R81. -/
def Obligations.SubWritesDifference : Prop :=
  (∀ (rd rs1 rs2 : RegIx) (s : State), WritesReg (.sub rd rs1 rs2) rd
      (modWord ((readReg s rs1).toNat - (readReg s rs2).toNat)) s)
    ∧ EncodedBy 0xFE00707F#32 0x40000033#32 fun w => .sub (rdField w) (rs1Field w) (rs2Field w)

/-- R82. -/
def Obligations.SltWritesSignedComparison : Prop :=
  (∀ (rd rs1 rs2 : RegIx) (s : State),
      (signed (readReg s rs1) < signed (readReg s rs2) → WritesReg (.slt rd rs1 rs2) rd 0x00000001#32 s)
        ∧ (¬ signed (readReg s rs1) < signed (readReg s rs2) → WritesReg (.slt rd rs1 rs2) rd 0x00000000#32 s))
    ∧ EncodedBy 0xFE00707F#32 0x00002033#32 fun w => .slt (rdField w) (rs1Field w) (rs2Field w)

/-- R83. That the amount is the low 5 bits of `x[rs2]` is the spec's decision D4 (log 9). -/
def Obligations.SrlShiftsByLowFiveBits : Prop :=
  (∀ (rd rs1 rs2 : RegIx) (s : State), WritesReg (.srl rd rs1 rs2) rd
      (BitVec.ofNat 32 ((readReg s rs1).toNat / 2 ^ ((readReg s rs2).toNat % 32))) s)
    ∧ EncodedBy 0xFE00707F#32 0x00005033#32 fun w => .srl (rdField w) (rs1Field w) (rs2Field w)

/-- R84. -/
def Obligations.OrWritesBitwiseOr : Prop :=
  (∀ (rd rs1 rs2 : RegIx) (s : State), ∃ v : Word,
      HasBits v (fun k => (readReg s rs1).getLsbD k || (readReg s rs2).getLsbD k)
        ∧ WritesReg (.or rd rs1 rs2) rd v s)
    ∧ EncodedBy 0xFE00707F#32 0x00006033#32 fun w => .or (rdField w) (rs1Field w) (rs2Field w)

/-- R85. -/
def Obligations.AndWritesBitwiseAnd : Prop :=
  (∀ (rd rs1 rs2 : RegIx) (s : State), ∃ v : Word,
      HasBits v (fun k => (readReg s rs1).getLsbD k && (readReg s rs2).getLsbD k)
        ∧ WritesReg (.and rd rs1 rs2) rd v s)
    ∧ EncodedBy 0xFE00707F#32 0x00007033#32 fun w => .and (rdField w) (rs1Field w) (rs2Field w)

/-- R90. -/
def Obligations.AddiWritesSumWithImmediate : Prop :=
  (∀ (rd rs1 : RegIx) (imm : BitVec 12) (s : State), WritesReg (.addi rd rs1 imm) rd
      (modWord ((readReg s rs1).toNat + imm.toInt)) s)
    ∧ EncodedBy 0x0000707F#32 0x00000013#32 fun w => .addi (rdField w) (rs1Field w) (iField w)

/-! ## Loads and stores -/

/-- R97, R15, R17: every address and next-pc is reduced modulo 2^32 (the spec's decision D8, log 12), and the
jump clears bit 0 only. -/
def Obligations.AddressArithmeticWraps : Prop :=
  ∀ (s : State) (rs1 : RegIx) (imm : BitVec 12) (off : BitVec 13),
    sequentialPc s = modWord ((s.pc.toNat : Int) + 4)
      ∧ effectiveAddress s rs1 imm = modWord ((readReg s rs1).toNat + imm.toInt)
      ∧ branchTarget s off = modWord ((s.pc.toNat : Int) + off.toInt)
      ∧ (jumpTarget s rs1 imm).toNat = (effectiveAddress s rs1 imm).toNat / 2 * 2

/-- R95: the value is `MemRead(ea, 4)`, 0 when the address is invalid; the load retires in either case. -/
def Obligations.LwLoadsWord : Prop :=
  (∀ (rd rs1 : RegIx) (imm : BitVec 12) (s : State),
      WritesReg (.lw rd rs1 imm) rd
          (BitVec.ofNat 32 (memRead s (modWord ((readReg s rs1).toNat + imm.toInt)) 4)) s
        ∧ (valid s.params (modWord ((readReg s rs1).toNat + imm.toInt)) 4 = false →
            WritesReg (.lw rd rs1 imm) rd 0#32 s))
    ∧ EncodedBy 0x0000707F#32 0x00002003#32 fun w => .lw (rdField w) (rs1Field w) (iField w)

/-- R96: all 32 bits of `x[rs2]`, little-endian at `ea`, the address the meaning computes; nothing when `ea` is
not valid for 4 bytes; no register; the store retires in either case. -/
def Obligations.SwStoresWord : Prop :=
  (∀ (rs2 rs1 : RegIx) (imm : BitVec 12) (s : State), Memory.wf s.mem →
      ∃ t, exec (.sw rs2 rs1 imm) s = .next t ∧ SameRegs s t ∧ t.pc = modWord ((s.pc.toNat : Int) + 4)
        ∧ Retired s t
        ∧ ∀ ea : Word, effectiveAddress s rs1 imm = ea →
            ea = modWord ((readReg s rs1).toNat + imm.toInt)
              ∧ SameMemOutside ea.toNat 4 s t
              ∧ (valid s.params ea 4 = false → SameMem s t)
              ∧ (valid s.params ea 4 = true →
                  ∀ i < 4, Memory.byte t.mem (ea.toNat + i)
                    = BitVec.ofNat 8 (((readReg s rs2).toNat >>> (8 * i)) &&& 0xFF)))
    ∧ EncodedBy 0x0000707F#32 0x00002023#32 fun w => .sw (rs2Field w) (rs1Field w) (sField w)

/-- R98: a `sw` then a `lw` at the same effective address: the stored value when the address is valid; 0, and no
byte of memory changed by the pair, when it is not. A `lw` to register 0 changes no register in either case. -/
def Obligations.StoreThenLoad : Prop :=
  ∀ (rs2 rs1 rd base : RegIx) (imm disp : BitVec 12) (s t : State), Memory.wf s.mem →
    exec (.sw rs2 rs1 imm) s = .next t → effectiveAddress t base disp = effectiveAddress s rs1 imm →
    ∃ u, exec (.lw rd base disp) t = .next u
      ∧ (valid s.params (effectiveAddress s rs1 imm) 4 = true → rd ≠ 0#5 → readReg u rd = readReg s rs2)
      ∧ (valid s.params (effectiveAddress s rs1 imm) 4 = false → readReg u rd = 0#32 ∧ SameMem s u)
      ∧ (rd = 0#5 → SameRegs s u)

/-- R43: from the next state on, a fetch sees the bytes a valid `sw` stored for as long as they stand, whatever else
was written meanwhile: the whole word when it fetches at the same address, and byte by byte where it overlaps them. -/
def Obligations.StoredWordIsFetched : Prop :=
  ∀ (rs2 rs1 : RegIx) (imm : BitVec 12) (s t : State), Memory.wf s.mem →
    valid s.params (effectiveAddress s rs1 imm) 4 = true → exec (.sw rs2 rs1 imm) s = .next t →
    ∀ u : State, u.params = t.params →
      ((∀ j < 4, Memory.byte u.mem ((effectiveAddress s rs1 imm).toNat + j)
            = Memory.byte t.mem ((effectiveAddress s rs1 imm).toNat + j)) →
          u.pc = effectiveAddress s rs1 imm → fetch u = readReg s rs2)
        ∧ (valid u.params u.pc 4 = true → ∀ i < 4, ∀ j < 4,
            u.pc.toNat + i = (effectiveAddress s rs1 imm).toNat + j →
            Memory.byte u.mem ((effectiveAddress s rs1 imm).toNat + j)
              = Memory.byte t.mem ((effectiveAddress s rs1 imm).toNat + j) →
            (fetch u).toNat / 256 ^ i % 256 = (readReg s rs2).toNat / 256 ^ j % 256)

/-! ## Branches and jumps -/

/-- R100. -/
def Obligations.BeqBranchesIfEqual : Prop :=
  (∀ (rs1 rs2 : RegIx) (off : BitVec 13) (s : State),
      Branches (.beq rs1 rs2 off) (readReg s rs1 = readReg s rs2) off s)
    ∧ EncodedBy 0x0000707F#32 0x00000063#32 fun w => .beq (rs1Field w) (rs2Field w) (bField w)

/-- R101. -/
def Obligations.BneBranchesIfNotEqual : Prop :=
  (∀ (rs1 rs2 : RegIx) (off : BitVec 13) (s : State),
      Branches (.bne rs1 rs2 off) (readReg s rs1 ≠ readReg s rs2) off s)
    ∧ EncodedBy 0x0000707F#32 0x00001063#32 fun w => .bne (rs1Field w) (rs2Field w) (bField w)

/-- R102. The signed comparison is the spec's decision D3 (log 8). -/
def Obligations.BltBranchesIfSignedLess : Prop :=
  (∀ (rs1 rs2 : RegIx) (off : BitVec 13) (s : State),
      Branches (.blt rs1 rs2 off) (signed (readReg s rs1) < signed (readReg s rs2)) off s)
    ∧ EncodedBy 0x0000707F#32 0x00004063#32 fun w => .blt (rs1Field w) (rs2Field w) (bField w)

/-- R110. That the target uses the old `x[rs1]` when `rd = rs1` is the spec's decision D9 (log 13). -/
def Obligations.JalrLinksAndJumps : Prop :=
  (∀ (rd rs1 : RegIx) (imm : BitVec 12) (s : State),
      ∃ t, exec (.jalr rd rs1 imm) s = .next t
        ∧ (rd ≠ 0#5 → readReg t rd = modWord ((s.pc.toNat : Int) + 4))
        ∧ t.pc.toNat = (modWord ((readReg s rs1).toNat + imm.toInt)).toNat / 2 * 2
        ∧ OnlyReg rd s t ∧ SameMem s t ∧ Retired s t)
    ∧ EncodedBy 0x0000707F#32 0x00000067#32 fun w => .jalr (rdField w) (rs1Field w) (iField w)

/-! ## All instructions at once -/

/-- R150, R155: every instruction runs in every state: none faults, is refused, stops the run by itself or
changes the parameters, whatever its operands, and each counts once. With it the frame common to all: a register
that is not the destination keeps its value, and memory does unless the instruction is a `sw`. -/
def Obligations.EveryInstructionRetires : Prop :=
  ∀ (i : Instr) (s : State), ∃ t, exec i s = .next t ∧ Retired s t
    ∧ (∀ r : RegIx, destOf i ≠ some r → readReg t r = readReg s r)
    ∧ ((∀ rs2 rs1 imm, i ≠ .sw rs2 rs1 imm) → SameMem s t)

/-- R120, R41: if a byte of memory changed, the instruction was a `sw` with a valid address, the byte is one of
the four it addresses, and no register changed. -/
def Obligations.OnlySwChangesMemory : Prop :=
  ∀ (i : Instr) (s t : State) (a : Nat), Memory.wf s.mem → exec i s = .next t →
    Memory.byte t.mem a ≠ Memory.byte s.mem a →
    ∃ rs2 rs1 imm, i = .sw rs2 rs1 imm ∧ valid s.params (effectiveAddress s rs1 imm) 4 = true
      ∧ (effectiveAddress s rs1 imm).toNat ≤ a ∧ a < (effectiveAddress s rs1 imm).toNat + 4 ∧ SameRegs s t

/-- R111: the only instructions that can set the pc to something other than `pc + 4` are the three branches, each
only when its condition holds (R100, R101, R102), and `jalr`. That the condition of `blt` is the signed comparison
is the spec's decision D3 (log 8). -/
def Obligations.OnlyTransfersLeaveSequence : Prop :=
  ∀ (i : Instr) (s t : State), exec i s = .next t → t.pc ≠ modWord ((s.pc.toNat : Int) + 4) →
    (∃ rs1 rs2 off, i = .beq rs1 rs2 off ∧ readReg s rs1 = readReg s rs2)
      ∨ (∃ rs1 rs2 off, i = .bne rs1 rs2 off ∧ readReg s rs1 ≠ readReg s rs2)
      ∨ (∃ rs1 rs2 off, i = .blt rs1 rs2 off ∧ signed (readReg s rs1) < signed (readReg s rs2))
      ∨ (∃ rd rs1 imm, i = .jalr rd rs1 imm)

/-! ## The step and the stops -/

/-- R117: the step, line by line, from the bytes at the pc. Outside the code region it stops at once; bytes that
decode to no instruction stop it with nothing committed; bytes that decode to `i` make it execute `i`, and then
the halt-word test and the ceiling test, in that order, decide whether the state `i` left is also stopped. -/
def Obligations.StepRunsDecodedInstruction : Prop :=
  ∀ s : State, Running s →
    (¬ PcInCode s → step s = .next { s with halted := true, stopCause := .pcOutOfCode })
      ∧ (PcInCode s → ∀ e, decodeBytes (bytesAtPc s) = .error e →
          step s = .next { s with halted := true, stopCause := .illegalInstruction })
      ∧ (PcInCode s → ∀ i rest, decodeBytes (bytesAtPc s) = .ok (i, rest) →
          i.wellFormed = true ∧ rest = [] ∧ ∃ t, exec i s = .next t ∧ Retired s t
            ∧ step s = .next
                (if fetch s = 0x00000063#32 then { t with halted := true, stopCause := .virtualHalt }
                 else if t.params.maxInstructions ≤ t.instret then
                   { t with halted := true, stopCause := .instructionCeiling }
                 else t))

/-- R118: with admitted parameters a fetch inside the code region is valid at every pc, aligned or not, and gives
the four bytes there. -/
def Obligations.FetchInCodeIsAlwaysValid : Prop :=
  ∀ s : State, s.params.wellFormed = true → PcInCode s →
    valid s.params s.pc 4 = true
      ∧ (fetch s).toNat = (Memory.byte s.mem s.pc.toNat).toNat
          + (Memory.byte s.mem (s.pc.toNat + 1)).toNat * 2 ^ 8
          + (Memory.byte s.mem (s.pc.toNat + 2)).toNat * 2 ^ 16
          + (Memory.byte s.mem (s.pc.toNat + 3)).toNat * 2 ^ 24

/-- R140: nothing but the flag and the cause changes, whatever the pc points at; no trace record. -/
def Obligations.PcOutOfCodeStops : Prop :=
  ∀ s : State, Running s → ¬ PcInCode s →
    step s = .next { s with halted := true, stopCause := .pcOutOfCode } ∧ stepRecord s = none

/-- R141: a fetched word that matches no row of the map stops the run; nothing but the flag and the cause
changes; no trace record. -/
def Obligations.IllegalInstructionStops : Prop :=
  ∀ s : State, Running s → PcInCode s →
    (∀ r ∈ Config.encoding.rows, fetch s &&& r.mask ≠ r.pattern) →
    step s = .next { s with halted := true, stopCause := .illegalInstruction } ∧ stepRecord s = none

/-- R142: the halt word retires as a `beq` to itself, is counted and traced, and stops the run, whatever is left
of the instruction budget. -/
def Obligations.HaltWordStops : Prop :=
  ∀ s : State, Running s → PcInCode s → fetch s = 0x00000063#32 →
    ∃ t, step s = .next t ∧ t.halted = true ∧ t.stopCause = .virtualHalt ∧ t.pc = s.pc
      ∧ t.instret = s.instret + 1 ∧ t.cycle = s.cycle + 1 ∧ SameRegs s t ∧ SameMem s t
      ∧ t.params = s.params ∧ stepRecord s = some (traceRecord t)

/-- R143, R124: an instruction other than the halt word that brings `instret` to `MAX_INSTRUCTIONS` retires in
full and stops the run; one that does not leaves it running. -/
def Obligations.CeilingStops : Prop :=
  ∀ (s : State) (i : Instr), Running s → PcInCode s → fetch s ≠ 0x00000063#32 → decode (fetch s) = .ok i →
    ∃ t, exec i s = .next t
      ∧ (s.params.maxInstructions ≤ s.instret + 1 →
          step s = .next { t with halted := true, stopCause := .instructionCeiling })
      ∧ (s.instret + 1 < s.params.maxInstructions → step s = .next t ∧ t.halted = false)

/-- R146: which stop a step ends in, by the order of the tests; a step has at most one cause. -/
def Obligations.EachStopExactlyWhen : Prop :=
  ∀ s t : State, Running s → s.stopCause = .none → step s = .next t →
    (t.stopCause = .pcOutOfCode ↔ ¬ PcInCode s)
      ∧ (t.stopCause = .illegalInstruction ↔ PcInCode s ∧ ∃ e, decode (fetch s) = .error e)
      ∧ (t.stopCause = .virtualHalt ↔ PcInCode s ∧ fetch s = 0x00000063#32)
      ∧ (t.stopCause = .instructionCeiling ↔
          PcInCode s ∧ (∃ i, decode (fetch s) = .ok i) ∧ fetch s ≠ 0x00000063#32
            ∧ s.params.maxInstructions ≤ s.instret + 1)
      ∧ (t.halted = true ↔ t.stopCause ≠ .none)

/-- R148, R20 (the spec's decision D10, log 3 and log 14): a halted core takes no step and has not faulted. -/
def Obligations.HaltedCoreTakesNoStep : Prop :=
  ∀ s : State, s.halted = true → (∀ t, step s ≠ .next t) ∧ (∀ f, step s ≠ .fault f)

/-- R6, R124, U5 (log 4, the model's choice of place): parameters the spec does not admit, a ceiling of 0 among
them, are refused, by the step of a running core and by the boot. -/
def Obligations.IllegalParametersRefused : Prop :=
  (∀ p : Params, p.maxInstructions = 0 → p.wellFormed = false)
    ∧ (∀ s : State, s.halted = false → s.params.wellFormed = false → step s = .refused .illegalParameters)
    ∧ (∀ (p : Params) (img : List Word), p.wellFormed = false → boot p img = none)

/-- R18, R19, R151 (the spec's decision D11): a step either retires one instruction and adds 1 to both counters,
or stops with nothing else changed. -/
def Obligations.CountersCountRetirements : Prop :=
  ∀ s t : State, step s = .next t →
    (t.instret = s.instret + 1 ∧ t.cycle = s.cycle + 1
        ∧ ∃ i u, decode (fetch s) = .ok i ∧ exec i s = .next u ∧ SameRegs u t ∧ t.mem = u.mem ∧ t.pc = u.pc)
      ∨ (t.instret = s.instret ∧ t.cycle = s.cycle ∧ t = { s with halted := true, stopCause := t.stopCause }
          ∧ (t.stopCause = .pcOutOfCode ∨ t.stopCause = .illegalInstruction))

/-! ## Invariants and runs -/

/-- `Inv` holds at reset and at the first step of every run the host can start (R26, R163). -/
def Obligations.InvAtBoot : Prop :=
  Inv State.reset ∧ ∀ (p : Params) (img : List Word) (s : State), boot p img = some s → Inv s

/-- Every step keeps `Inv` (R16, R18, R19, R21, R22 together) and the parameters, from every state with `Inv`. -/
def Obligations.StepKeepsInv : Prop :=
  ∀ s t : State, Inv s → step s = .next t → Inv t ∧ t.params = s.params

/-- R125, R116: from every state with `Inv` the core goes on stepping until it stops, within
`MAX_INSTRUCTIONS - instret + 1` steps, with at most `MAX_INSTRUCTIONS` instructions retired. -/
def Obligations.EveryRunEnds : Prop :=
  ∀ s : State, Inv s →
    ∃ k t, k ≤ s.params.maxInstructions - s.instret + 1 ∧ Host.Core.run Sys2Proof.core k s = .next t
      ∧ Inv t ∧ t.halted = true ∧ t.stopCause ≠ .none ∧ t.instret ≤ s.params.maxInstructions

/-! ## Image, trace, dump -/

/-- R163: the image stands at the start of the code region, little-endian; every other byte, and all other state,
is as reset left it. -/
def Obligations.BootLoadsImage : Prop :=
  ∀ (p : Params) (img : List Word), p.wellFormed = true → 4 * img.length ≤ p.codeSize →
    ∃ s, boot p img = some s
      ∧ (∀ (k : Nat) (h : k < img.length), ∀ j < 4, Memory.byte s.mem (p.codeBase + 4 * k + j)
          = BitVec.ofNat 8 ((img[k].toNat >>> (8 * j)) &&& 0xFF))
      ∧ (∀ a : Nat, a < p.codeBase ∨ p.codeBase + 4 * img.length ≤ a → Memory.byte s.mem a = 0#8)
      ∧ (∀ r, readReg s r = 0#32) ∧ s.pc.toNat = p.codeBase ∧ s.instret = 0 ∧ s.cycle = 0
      ∧ s.halted = false ∧ s.stopCause = .none ∧ s.params = p

/-- R164 (the spec's decisions D14 and D21): an image longer than the code region is refused; the empty image is
allowed and stops at once as an illegal instruction with nothing retired. -/
def Obligations.ImageSizeLimits : Prop :=
  (∀ (p : Params) (img : List Word), p.codeSize < 4 * img.length → boot p img = none)
    ∧ (∀ p : Params, p.wellFormed = true → ∃ s t, boot p [] = some s ∧ step s = .next t ∧ t.halted = true
        ∧ t.stopCause = .illegalInstruction ∧ t.instret = 0 ∧ t.pc.toNat = p.codeBase)

/-- The model's stand-in for the image load (log 7): the very next step fetches and runs the placed word; and a
state that can already fetch changes in no more than the four bytes at its pc. -/
def Obligations.PlacedWordIsFetchedNext : Prop :=
  ∀ (s : State) (nbits w : Nat), Memory.wf s.mem →
    step (s.withFetchWord nbits w) = runWord (BitVec.ofNat 32 (w % 2 ^ nbits)) (s.withFetchWord nbits w)
      ∧ (Running s → PcInCode s →
          SameRegs s (s.withFetchWord nbits w) ∧ SameMemOutside s.pc.toNat 4 s (s.withFetchWord nbits w)
            ∧ (s.withFetchWord nbits w).pc = s.pc ∧ (s.withFetchWord nbits w).instret = s.instret
            ∧ (s.withFetchWord nbits w).cycle = s.cycle ∧ (s.withFetchWord nbits w).halted = s.halted
            ∧ (s.withFetchWord nbits w).stopCause = s.stopCause
            ∧ (s.withFetchWord nbits w).params = s.params)

/-- R166: a record is the post-step pc and the 32 registers, `x[0]` always 0; a step that retires makes one, a
step that stops before it makes none; and the records of a run are as many as the instructions it retired and
only ever appended to. -/
def Obligations.TraceRecordsRetirements : Prop :=
  (∀ s : State, (traceRecord s).pc = s.pc ∧ (traceRecord s).regs.length = 32
      ∧ (∀ i : RegIx, (traceRecord s).regs[i.toNat]? = some (readReg s i))
      ∧ (traceRecord s).regs[0]? = some 0#32)
    ∧ (∀ s t : State, step s = .next t →
        (t.instret = s.instret + 1 → stepRecord s = some (traceRecord t))
          ∧ (t.stopCause = .pcOutOfCode ∨ t.stopCause = .illegalInstruction → s.stopCause = .none →
              stepRecord s = none))
    ∧ (∀ (k : Nat) (s t : State), Host.Core.run Sys2Proof.core k s = .next t →
        (traceOf k s).length + s.instret = t.instret)
    ∧ (∀ (k : Nat) (s : State), traceOf k s <+: traceOf (k + 1) s)

/-- R167: every word of code, then of stack, then of data, in address order. -/
def Obligations.DumpListsEveryWord : Prop :=
  ∀ s : State,
    (dump s).length = s.params.codeSize / 4 + s.params.stackSize / 4 + s.params.dataSize / 4
      ∧ (∀ k < s.params.codeSize / 4,
          (dump s)[k]? = some (readWord s (BitVec.ofNat 32 (s.params.codeBase + 4 * k))))
      ∧ (∀ k < s.params.stackSize / 4, (dump s)[s.params.codeSize / 4 + k]?
          = some (readWord s (BitVec.ofNat 32 (s.params.stackBase + 4 * k))))
      ∧ (∀ k < s.params.dataSize / 4, (dump s)[s.params.codeSize / 4 + s.params.stackSize / 4 + k]?
          = some (readWord s (BitVec.ofNat 32 (s.params.dataBase + 4 * k))))

/-! ## Decoding and encoding -/

/-- R50: each field is its bits, and the six tile the word. -/
def Obligations.FieldsTileWord : Prop :=
  ∀ w : Word,
    (opcodeField w).toNat = w.toNat % 2 ^ 7 ∧ (rdField w).toNat = w.toNat / 2 ^ 7 % 2 ^ 5
      ∧ (funct3Field w).toNat = w.toNat / 2 ^ 12 % 2 ^ 3 ∧ (rs1Field w).toNat = w.toNat / 2 ^ 15 % 2 ^ 5
      ∧ (rs2Field w).toNat = w.toNat / 2 ^ 20 % 2 ^ 5 ∧ (funct7Field w).toNat = w.toNat / 2 ^ 25 % 2 ^ 7
      ∧ w.toNat = (funct7Field w).toNat * 2 ^ 25 + (rs2Field w).toNat * 2 ^ 20 + (rs1Field w).toNat * 2 ^ 15
          + (funct3Field w).toNat * 2 ^ 12 + (rdField w).toNat * 2 ^ 7 + (opcodeField w).toNat

/-- R51: `sext_N`, for every width up to 32, and its signed value. -/
def Obligations.SignExtensionIsTwosComplement : Prop :=
  ∀ (n : Nat) (v : BitVec n), 0 < n → n ≤ 32 →
    (v.getLsbD (n - 1) = false → (sext v).toNat = v.toNat ∧ signed (sext v) = v.toNat)
      ∧ (v.getLsbD (n - 1) = true →
          (sext v).toNat = v.toNat + (2 ^ 32 - 2 ^ n) ∧ signed (sext v) = (v.toNat : Int) - 2 ^ n)

/-- R52 to R56: the five immediates the decoder computes from every word, bit by bit, and their ranges. -/
def Obligations.ImmediatesBitByBit : Prop :=
  ∀ w : Word,
    HasBits (decoderOutputs w).iImm (fun k => if k < 11 then w.getLsbD (k + 20) else w.getLsbD 31)
      ∧ HasBits (decoderOutputs w).sImm (fun k =>
          if k < 5 then w.getLsbD (k + 7) else if k < 11 then w.getLsbD (k + 20) else w.getLsbD 31)
      ∧ HasBits (decoderOutputs w).bImm (fun k =>
          if k = 0 then false else if k < 5 then w.getLsbD (k + 7) else if k < 11 then w.getLsbD (k + 20)
          else if k = 11 then w.getLsbD 7 else w.getLsbD 31)
      ∧ (decoderOutputs w).uImm = w &&& 0xFFFFF000#32
      ∧ HasBits (decoderOutputs w).jImm (fun k =>
          if k = 0 then false else if k < 11 then w.getLsbD (k + 20) else if k = 11 then w.getLsbD 20
          else if k < 20 then w.getLsbD k else w.getLsbD 31)
      ∧ (-2048 ≤ signed (decoderOutputs w).iImm ∧ signed (decoderOutputs w).iImm ≤ 2047)
      ∧ (-2048 ≤ signed (decoderOutputs w).sImm ∧ signed (decoderOutputs w).sImm ≤ 2047)
      ∧ (-4096 ≤ signed (decoderOutputs w).bImm ∧ signed (decoderOutputs w).bImm ≤ 4094)
      ∧ (-1048576 ≤ signed (decoderOutputs w).jImm ∧ signed (decoderOutputs w).jImm ≤ 1048574)

/-- R61 (numbers by D2, funct3 always matched by D19): a word is the instruction of the row it matches, and it
matches at most one. -/
def Obligations.OpcodeMapDecides : Prop :=
  (∀ (w : Word) (i : Instr), decode w = .ok i ↔
      ∃ e ∈ opcodeMap, w &&& e.2.1 = e.2.2 ∧ i = e.1.build w)
    ∧ (∀ (w : Word) (e₁ e₂ : Mnemonic × Word × Word), e₁ ∈ opcodeMap → e₂ ∈ opcodeMap →
        w &&& e₁.2.1 = e₁.2.2 → w &&& e₂.2.1 = e₂.2.2 → e₁ = e₂)

/-- R63 (numbers by D2, log 2): the illegal words, clause by clause. -/
def Obligations.IllegalSpace : Prop :=
  ∀ w : Word, (∃ e, decode w = .error e) ↔
    (opcodeField w ∉ [0x33#7, 0x13#7, 0x03#7, 0x23#7, 0x63#7, 0x67#7])
      ∨ (opcodeField w = 0x33#7 ∧ (funct3Field w, funct7Field w) ∉
          [(0#3, 0x00#7), (0#3, 0x20#7), (2#3, 0x00#7), (5#3, 0x00#7), (6#3, 0x00#7), (7#3, 0x00#7)])
      ∨ (opcodeField w = 0x13#7 ∧ funct3Field w ≠ 0#3)
      ∨ (opcodeField w = 0x03#7 ∧ funct3Field w ≠ 2#3)
      ∨ (opcodeField w = 0x23#7 ∧ funct3Field w ≠ 2#3)
      ∨ (opcodeField w = 0x63#7 ∧ funct3Field w ∈ [2#3, 3#3, 5#3, 6#3, 7#3])
      ∨ (opcodeField w = 0x67#7 ∧ funct3Field w ≠ 0#3)

/-- R59, R65: the bytes of a well-formed instruction decode to it, whatever follows them. -/
def Obligations.DecodeOfEncode : Prop :=
  ∀ (i : Instr) (rest : List Byte), i.wellFormed = true → decodeBytes (encodeBytes i ++ rest) = .ok (i, rest)

/-- R65: the encoder inverts the decoder on every legal word, and in each format the immediate's bits are the
word's bits. -/
def Obligations.EncodeOfDecode : Prop :=
  (∀ (w : Word) (i : Instr), decode w = .ok i → i.wellFormed = true ∧ encode i = w)
    ∧ (∀ w : Word,
        formatR (funct7Field w) (rs2Field w) (rs1Field w) (funct3Field w) (rdField w) (opcodeField w) = w
          ∧ (decoderOutputs w).iImm.extractLsb 11 0 = w.extractLsb 31 20
          ∧ (decoderOutputs w).sImm.extractLsb 11 5 = w.extractLsb 31 25
          ∧ (decoderOutputs w).sImm.extractLsb 4 0 = w.extractLsb 11 7
          ∧ (decoderOutputs w).bImm.extractLsb 12 12 = w.extractLsb 31 31
          ∧ (decoderOutputs w).bImm.extractLsb 10 5 = w.extractLsb 30 25
          ∧ (decoderOutputs w).bImm.extractLsb 4 1 = w.extractLsb 11 8
          ∧ (decoderOutputs w).bImm.extractLsb 11 11 = w.extractLsb 7 7)

/-- Words written out in 95_test_vectors.md 2.2 and 2.3, one or more of each format, decode as printed there. -/
def Obligations.SampleWordsDecode : Prop :=
  decode 0x402081B3#32 = .ok (.sub 3#5 1#5 2#5)
    ∧ decode 0xFFF08193#32 = .ok (.addi 3#5 1#5 0xFFF#12)
    ∧ decode 0x0080A183#32 = .ok (.lw 3#5 1#5 8#12)
    ∧ decode 0xFE20AE23#32 = .ok (.sw 2#5 1#5 0xFFC#12)
    ∧ decode 0xFE209CE3#32 = .ok (.bne 1#5 2#5 0x1FF8#13)
    ∧ decode 0x7E20CFE3#32 = .ok (.blt 1#5 2#5 0x0FFE#13)
    ∧ decode 0xFFE280E7#32 = .ok (.jalr 1#5 5#5 0xFFE#12)
    ∧ decode 0x00000063#32 = .ok (.beq 0#5 0#5 0#13)
    ∧ (∃ e, decode 0x4020D1B3#32 = .error e) ∧ (∃ e, decode 0x0000006F#32 = .error e)
end

