-- ==== Sys2Proof/Laws/State.lean ====
section
/-!
SUPPORT. One lemma per field per update of State: later proofs cite these and unfold no record update.
-/

namespace Sys2Proof.Machine

/-! ## `stop` -/

@[simp] theorem stop_regs (c : StopCause) (s : State) : (stop c s).regs = s.regs := rfl
@[simp] theorem stop_pc (c : StopCause) (s : State) : (stop c s).pc = s.pc := rfl
@[simp] theorem stop_instret (c : StopCause) (s : State) : (stop c s).instret = s.instret := rfl
@[simp] theorem stop_cycle (c : StopCause) (s : State) : (stop c s).cycle = s.cycle := rfl
@[simp] theorem stop_halted (c : StopCause) (s : State) : (stop c s).halted = true := rfl
@[simp] theorem stop_stopCause (c : StopCause) (s : State) : (stop c s).stopCause = c := rfl
@[simp] theorem stop_mem (c : StopCause) (s : State) : (stop c s).mem = s.mem := rfl
@[simp] theorem stop_params (c : StopCause) (s : State) : (stop c s).params = s.params := rfl

/-! ## `commitPc` -/

@[simp] theorem commitPc_regs (s : State) (a : Word) : (commitPc s a).regs = s.regs := rfl
@[simp] theorem commitPc_pc (s : State) (a : Word) : (commitPc s a).pc = a := rfl
@[simp] theorem commitPc_instret (s : State) (a : Word) : (commitPc s a).instret = s.instret + 1 := rfl
@[simp] theorem commitPc_cycle (s : State) (a : Word) : (commitPc s a).cycle = s.cycle + 1 := rfl
@[simp] theorem commitPc_halted (s : State) (a : Word) : (commitPc s a).halted = s.halted := rfl
@[simp] theorem commitPc_stopCause (s : State) (a : Word) : (commitPc s a).stopCause = s.stopCause := rfl
@[simp] theorem commitPc_mem (s : State) (a : Word) : (commitPc s a).mem = s.mem := rfl
@[simp] theorem commitPc_params (s : State) (a : Word) : (commitPc s a).params = s.params := rfl

/-! ## `writeReg` -/

@[simp] theorem writeReg_pc (s : State) (i : RegIx) (v : Word) : (writeReg s i v).pc = s.pc := by
  unfold writeReg; split <;> rfl
@[simp] theorem writeReg_instret (s : State) (i : RegIx) (v : Word) : (writeReg s i v).instret = s.instret := by
  unfold writeReg; split <;> rfl
@[simp] theorem writeReg_cycle (s : State) (i : RegIx) (v : Word) : (writeReg s i v).cycle = s.cycle := by
  unfold writeReg; split <;> rfl
@[simp] theorem writeReg_halted (s : State) (i : RegIx) (v : Word) : (writeReg s i v).halted = s.halted := by
  unfold writeReg; split <;> rfl
@[simp] theorem writeReg_stopCause (s : State) (i : RegIx) (v : Word) :
    (writeReg s i v).stopCause = s.stopCause := by
  unfold writeReg; split <;> rfl
@[simp] theorem writeReg_mem (s : State) (i : RegIx) (v : Word) : (writeReg s i v).mem = s.mem := by
  unfold writeReg; split <;> rfl
@[simp] theorem writeReg_params (s : State) (i : RegIx) (v : Word) : (writeReg s i v).params = s.params := by
  unfold writeReg; split <;> rfl

/-! ## `memWrite` and `writeWord` -/

@[simp] theorem memWrite_regs (s : State) (a : Word) (n v : Nat) : (memWrite s a n v).regs = s.regs := by
  unfold memWrite; split <;> rfl
@[simp] theorem memWrite_pc (s : State) (a : Word) (n v : Nat) : (memWrite s a n v).pc = s.pc := by
  unfold memWrite; split <;> rfl
@[simp] theorem memWrite_instret (s : State) (a : Word) (n v : Nat) :
    (memWrite s a n v).instret = s.instret := by
  unfold memWrite; split <;> rfl
@[simp] theorem memWrite_cycle (s : State) (a : Word) (n v : Nat) : (memWrite s a n v).cycle = s.cycle := by
  unfold memWrite; split <;> rfl
@[simp] theorem memWrite_halted (s : State) (a : Word) (n v : Nat) : (memWrite s a n v).halted = s.halted := by
  unfold memWrite; split <;> rfl
@[simp] theorem memWrite_stopCause (s : State) (a : Word) (n v : Nat) :
    (memWrite s a n v).stopCause = s.stopCause := by
  unfold memWrite; split <;> rfl
@[simp] theorem memWrite_params (s : State) (a : Word) (n v : Nat) : (memWrite s a n v).params = s.params := by
  unfold memWrite; split <;> rfl

@[simp] theorem writeWord_regs (s : State) (a v : Word) : (writeWord s a v).regs = s.regs := memWrite_regs ..
@[simp] theorem writeWord_pc (s : State) (a v : Word) : (writeWord s a v).pc = s.pc := memWrite_pc ..
@[simp] theorem writeWord_instret (s : State) (a v : Word) : (writeWord s a v).instret = s.instret :=
  memWrite_instret ..
@[simp] theorem writeWord_cycle (s : State) (a v : Word) : (writeWord s a v).cycle = s.cycle := memWrite_cycle ..
@[simp] theorem writeWord_halted (s : State) (a v : Word) : (writeWord s a v).halted = s.halted :=
  memWrite_halted ..
@[simp] theorem writeWord_stopCause (s : State) (a v : Word) : (writeWord s a v).stopCause = s.stopCause :=
  memWrite_stopCause ..
@[simp] theorem writeWord_params (s : State) (a v : Word) : (writeWord s a v).params = s.params :=
  memWrite_params ..

/-! ## Reset -/

@[simp] theorem resetWith_pc (p : Params) : (State.resetWith p).pc = BitVec.ofNat 32 p.codeBase := rfl
@[simp] theorem resetWith_instret (p : Params) : (State.resetWith p).instret = 0 := rfl
@[simp] theorem resetWith_cycle (p : Params) : (State.resetWith p).cycle = 0 := rfl
@[simp] theorem resetWith_halted (p : Params) : (State.resetWith p).halted = false := rfl
@[simp] theorem resetWith_stopCause (p : Params) : (State.resetWith p).stopCause = .none := rfl
@[simp] theorem resetWith_mem (p : Params) : (State.resetWith p).mem = [] := rfl
@[simp] theorem resetWith_params (p : Params) : (State.resetWith p).params = p := rfl

end Sys2Proof.Machine
end

