-- ==== Sys2Proof/Laws/Memory.lean ====
section
/-!
SUPPORT. What the byte store does: read after write, and that every operation keeps the canonical form.
-/

namespace Sys2Proof.Machine

namespace Memory

/-! ## One byte -/

@[simp] theorem byte_nil (a : Nat) : Memory.byte [] a = 0#8 := rfl

theorem byte_cons (c : Host.Cell) (m : Memory) (a : Nat) :
    Memory.byte (c :: m) a = if c.1 = a then c.2 else Memory.byte m a := rfl

/-- An address below every listed one reads as an unlisted one. -/
theorem byte_of_lt {m : Memory} {a : Nat} (h : ∀ c ∈ m, a < c.1) : Memory.byte m a = 0#8 := by
  induction m with
  | nil => rfl
  | cons c m ih =>
    have hc := h c (by simp)
    rw [byte_cons, if_neg (by omega)]
    exact ih fun d hd => h d (by simp [hd])

theorem byte_entry_append (a : Nat) (b : Byte) (m : Memory) (x : Nat) (hm : Memory.byte m a = 0#8) :
    Memory.byte (Memory.entry a b ++ m) x = if x = a then b else Memory.byte m x := by
  unfold Memory.entry
  by_cases hb : b = Config.unlistedByte
  · rw [if_pos hb, List.nil_append]
    split
    · subst_vars; exact hm
    · rfl
  · rw [if_neg hb, List.singleton_append, byte_cons]
    simp only [eq_comm]

/-- Read after write, for every byte. -/
theorem byte_set {m : Memory} (hm : Memory.wf m) (a : Nat) (b : Byte) (x : Nat) :
    Memory.byte (Memory.set m a b) x = if x = a then b else Memory.byte m x := by
  induction m with
  | nil =>
    have := byte_entry_append a b [] x rfl
    rwa [List.append_nil] at this
  | cons c m ih =>
    obtain ⟨hp, hz⟩ := hm
    rw [List.pairwise_cons] at hp
    have hm' : Memory.wf m := ⟨hp.2, fun d hd => hz d (by simp [hd])⟩
    unfold Memory.set
    by_cases h1 : a < c.1
    · rw [if_pos h1]
      refine byte_entry_append a b _ x (byte_of_lt fun d hd => ?_)
      rcases List.mem_cons.1 hd with rfl | hd
      · exact h1
      · exact h1.trans (hp.1 d hd)
    · rw [if_neg h1]
      by_cases h2 : a = c.1
      · subst h2
        rw [if_pos rfl, byte_entry_append _ b m x (byte_of_lt hp.1), byte_cons]
        by_cases hx : x = c.1 <;> simp [hx, eq_comm]
      · rw [if_neg h2, byte_cons, byte_cons, ih hm']
        by_cases hc : c.1 = x
        · rw [if_pos hc, if_neg (by omega), if_pos hc]
        · simp [hc]

/-! ## The canonical form -/

theorem mem_set {m : Memory} {a : Nat} {b : Byte} {c : Host.Cell} (h : c ∈ Memory.set m a b) :
    c ∈ m ∨ (c = (a, b) ∧ b ≠ Config.unlistedByte) := by
  have hent : ∀ {l : Memory}, c ∈ Memory.entry a b ++ l → c ∈ l ∨ (c = (a, b) ∧ b ≠ Config.unlistedByte) := by
    intro l hl
    unfold Memory.entry at hl
    split at hl
    · exact .inl (by simpa using hl)
    · rcases List.mem_append.1 hl with hl | hl
      · exact .inr ⟨by simpa using hl, by assumption⟩
      · exact .inl hl
  induction m with
  | nil => exact hent (l := []) (by simpa [Memory.set] using h)
  | cons d m ih =>
    unfold Memory.set at h
    split at h
    · exact hent h
    · split at h
      · exact (hent h).imp (fun h => by simp [h]) id
      · rcases List.mem_cons.1 h with rfl | h
        · exact .inl (by simp)
        · exact (ih h).imp (fun h => by simp [h]) id

theorem wf_entry_append {a : Nat} {b : Byte} {m : Memory} (hm : Memory.wf m) (h : ∀ c ∈ m, a < c.1) :
    Memory.wf (Memory.entry a b ++ m) := by
  unfold Memory.entry
  split
  · exact hm
  · refine ⟨List.pairwise_cons.2 ⟨h, hm.1⟩, fun c hc => ?_⟩
    rcases List.mem_cons.1 hc with rfl | hc
    · assumption
    · exact hm.2 c hc

theorem wf_set {m : Memory} (hm : Memory.wf m) (a : Nat) (b : Byte) : Memory.wf (Memory.set m a b) := by
  induction m with
  | nil => simpa [Memory.set] using wf_entry_append (a := a) (b := b) hm (by simp)
  | cons c m ih =>
    obtain ⟨hp, hz⟩ := hm
    have hp' := List.pairwise_cons.1 hp
    have hm' : Memory.wf m := ⟨hp'.2, fun d hd => hz d (by simp [hd])⟩
    unfold Memory.set
    split
    · next h1 =>
      refine wf_entry_append ⟨hp, hz⟩ fun d hd => ?_
      rcases List.mem_cons.1 hd with rfl | hd
      · exact h1
      · exact h1.trans (hp'.1 d hd)
    · split
      · next h2 => exact wf_entry_append hm' fun d hd => h2 ▸ hp'.1 d hd
      · next h1 h2 =>
        refine ⟨List.pairwise_cons.2 ⟨fun d hd => ?_, (ih hm').1⟩, fun d hd => ?_⟩
        · rcases mem_set hd with hd | ⟨rfl, -⟩
          · exact hp'.1 d hd
          · show c.1 < a
            omega
        · rcases List.mem_cons.1 hd with rfl | hd
          · exact hz _ (by simp)
          · exact (ih hm').2 d hd

theorem wf_writeBytes {m : Memory} (hm : Memory.wf m) (a n v : Nat) : Memory.wf (Memory.writeBytes m a n v) := by
  induction n generalizing m a v with
  | zero => exact hm
  | succ n ih => exact ih (wf_set hm _ _) _ _

/-- Every listed address of a written memory was listed or lies in the written range. -/
theorem mem_writeBytes {m : Memory} {a n v : Nat} {c : Host.Cell} (h : c ∈ Memory.writeBytes m a n v) :
    c ∈ m ∨ (a ≤ c.1 ∧ c.1 < a + n) := by
  induction n generalizing m a v with
  | zero => exact .inl h
  | succ n ih =>
    rcases ih h with h | h
    · rcases mem_set h with h | ⟨rfl, -⟩
      · exact .inl h
      · exact .inr ⟨le_refl a, show a < a + (n + 1) by omega⟩
    · exact .inr (by omega)

/-! ## Runs of bytes -/

theorem byte_writeBytes_outside {m : Memory} (hm : Memory.wf m) {a n v x : Nat} (hx : x < a ∨ a + n ≤ x) :
    Memory.byte (Memory.writeBytes m a n v) x = Memory.byte m x := by
  induction n generalizing m a v with
  | zero => rfl
  | succ n ih =>
    show Memory.byte (Memory.writeBytes (Memory.set m a (BitVec.ofNat 8 v)) (a + 1) n (v / 256)) x = _
    rw [ih (wf_set hm _ _) (by omega), byte_set hm, if_neg (by omega)]

/-- The byte `i` of a write: `(v >> 8i) & 0xFF` (R35). -/
theorem byte_writeBytes_inside {m : Memory} (hm : Memory.wf m) {a n v i : Nat} (hi : i < n) :
    Memory.byte (Memory.writeBytes m a n v) (a + i) = BitVec.ofNat 8 (v >>> (8 * i)) := by
  induction n generalizing m a v i with
  | zero => omega
  | succ n ih =>
    show Memory.byte (Memory.writeBytes (Memory.set m a (BitVec.ofNat 8 v)) (a + 1) n (v / 256)) (a + i) = _
    cases i with
    | zero =>
      rw [byte_writeBytes_outside (wf_set hm _ _) (by omega), byte_set hm, if_pos (Nat.add_zero a)]
      rfl
    | succ i =>
      have := ih (wf_set hm a (BitVec.ofNat 8 v)) (a := a + 1) (v := v / 256) (i := i) (by omega)
      rw [show a + (i + 1) = a + 1 + i by omega, this]
      congr 1
      rw [show 8 * (i + 1) = 8 + 8 * i by omega, Nat.shiftRight_add, Nat.shiftRight_eq_div_pow v 8]

theorem readBytes_congr {m m' : Memory} {a n : Nat}
    (h : ∀ x, a ≤ x → x < a + n → Memory.byte m x = Memory.byte m' x) :
    Memory.readBytes m a n = Memory.readBytes m' a n := by
  induction n generalizing a with
  | zero => rfl
  | succ n ih =>
    show _ + _ = _ + _
    rw [h a (by omega) (by omega), ih fun x h1 h2 => h x (by omega) (by omega)]

theorem readBytes_lt (m : Memory) (a n : Nat) : Memory.readBytes m a n < 2 ^ (8 * n) := by
  induction n generalizing a with
  | zero => exact Nat.one_pos
  | succ n ih =>
    have h1 := (Memory.byte m a).isLt
    have h2 := ih (a + 1)
    have h3 : 2 ^ (8 * (n + 1)) = 256 * 2 ^ (8 * n) := by rw [show 8 * (n + 1) = 8 + 8 * n by omega, pow_add]; rfl
    show _ + 256 * _ < _
    omega

/-- The round trip of R36, for any number of bytes. -/
theorem readBytes_writeBytes {m : Memory} (hm : Memory.wf m) (a n v : Nat) :
    Memory.readBytes (Memory.writeBytes m a n v) a n = v % 2 ^ (8 * n) := by
  induction n generalizing m a v with
  | zero => exact (Nat.mod_one v).symm
  | succ n ih =>
    show (Memory.byte _ a).toNat + 256 * Memory.readBytes (Memory.writeBytes _ (a + 1) n (v / 256)) (a + 1) n = _
    have h0 := byte_writeBytes_inside hm (a := a) (n := n + 1) (v := v) (i := 0) (by omega)
    rw [ih (wf_set hm _ _)]
    simp only [Nat.add_zero, Nat.mul_zero, Nat.shiftRight_zero] at h0
    rw [h0, BitVec.toNat_ofNat, show 8 * (n + 1) = 8 + 8 * n by omega, pow_add, Nat.mod_mul]
    rfl

theorem readBytes_nil (a n : Nat) : Memory.readBytes [] a n = 0 := by
  induction n generalizing a with
  | zero => rfl
  | succ n ih => show 0 + 256 * Memory.readBytes [] (a + 1) n = 0; rw [ih]

/-- A word put in front of one more byte, as a number. -/
theorem toNat_append_byte {n : Nat} (x : BitVec n) (b : Byte) : (x ++ b).toNat = x.toNat * 256 + b.toNat := by
  rw [BitVec.toNat_append, ← Nat.shiftLeft_add_eq_or_of_lt b.isLt, Nat.shiftLeft_eq]

/-- Four bytes put together are the number R34 assembles. -/
theorem toNat_four_bytes (b3 b2 b1 b0 : Byte) :
    (b3 ++ b2 ++ b1 ++ b0).toNat = b0.toNat + 256 * (b1.toNat + 256 * (b2.toNat + 256 * b3.toNat)) := by
  rw [toNat_append_byte, toNat_append_byte, toNat_append_byte]
  omega

/-- Four bytes as a word, the lowest address least significant (R37). -/
theorem readBytes_four (m : Memory) (a : Nat) :
    BitVec.ofNat 32 (Memory.readBytes m a 4)
      = Memory.byte m (a + 3) ++ Memory.byte m (a + 2) ++ Memory.byte m (a + 1) ++ Memory.byte m a := by
  apply BitVec.eq_of_toNat_eq
  refine Eq.trans ?_ (toNat_four_bytes _ _ _ _).symm
  have h := readBytes_lt m a 4
  rw [BitVec.toNat_ofNat, Nat.mod_eq_of_lt h]
  simp only [Memory.readBytes, Nat.mul_zero, Nat.add_zero, add_assoc, Nat.reduceAdd]

end Memory

end Sys2Proof.Machine
end

