-- ==== Sys2Proof/Laws/Registers.lean ====
section
/-!
SUPPORT. What the register file does (R11, R12).
-/

namespace Sys2Proof.Machine

@[simp] theorem readReg_zero (s : State) : readReg s 0#5 = 0#32 := by simp [readReg]

@[simp] theorem writeReg_zero (s : State) (v : Word) : writeReg s 0#5 v = s := by simp [writeReg]

/-- A read sees the register array and nothing else. -/
theorem readReg_of_regs_eq {s t : State} (h : t.regs = s.regs) (i : RegIx) : readReg t i = readReg s i := by
  unfold readReg; rw [h]

theorem readReg_writeReg_same (s : State) {i : RegIx} (hi : i ≠ 0#5) (v : Word) :
    readReg (writeReg s i v) i = v := by
  simp [readReg, writeReg, hi]

theorem regSlot_injective {i j : RegIx} (hi : i ≠ 0#5) (hj : j ≠ 0#5)
    (h : (regSlot i hi).val = (regSlot j hj).val) : i = j := by
  have h1 : i.toNat ≠ 0 := fun e => hi (BitVec.eq_of_toNat_eq e)
  have h2 : j.toNat ≠ 0 := fun e => hj (BitVec.eq_of_toNat_eq e)
  simp only [regSlot] at h
  exact BitVec.eq_of_toNat_eq (by omega)

theorem readReg_writeReg_other (s : State) {i j : RegIx} (hij : j ≠ i) (v : Word) :
    readReg (writeReg s i v) j = readReg s j := by
  by_cases hi : i = 0#5
  · subst hi; simp
  by_cases hj : j = 0#5
  · subst hj; simp
  have hne : (regSlot i hi).val ≠ (regSlot j hj).val := fun e => hij (regSlot_injective hi hj e).symm
  simp only [readReg, writeReg, hi, hj, dite_false]
  exact Vector.getElem_set_ne _ _ hne

@[simp] theorem readReg_stop (c : StopCause) (s : State) (i : RegIx) : readReg (stop c s) i = readReg s i :=
  readReg_of_regs_eq rfl i
@[simp] theorem readReg_commitPc (s : State) (a : Word) (i : RegIx) : readReg (commitPc s a) i = readReg s i :=
  readReg_of_regs_eq rfl i
@[simp] theorem readReg_memWrite (s : State) (a : Word) (n v : Nat) (i : RegIx) :
    readReg (memWrite s a n v) i = readReg s i := readReg_of_regs_eq (by simp) i
@[simp] theorem readReg_writeWord (s : State) (a v : Word) (i : RegIx) :
    readReg (writeWord s a v) i = readReg s i := readReg_of_regs_eq (by simp) i

@[simp] theorem readReg_resetWith (p : Params) (i : RegIx) : readReg (State.resetWith p) i = 0#32 := by
  unfold readReg
  split
  · rfl
  · simp [State.resetWith]

end Sys2Proof.Machine
end

