-- ==== Sys2Proof/Laws/Regions.lean ====
section
/-!
SUPPORT. What the bounds check and the two memory primitives do (R30 to R36).
-/

namespace Sys2Proof.Machine

/-! ## The parameters' constraints, as arithmetic (R6) -/

theorem params_facts {p : Params} (h : p.wellFormed = true) :
    p.codeBase % 4 = 0 ∧ p.stackBase % 4 = 0 ∧ p.dataBase % 4 = 0
      ∧ p.codeSize % 4 = 0 ∧ p.stackSize % 4 = 0 ∧ p.dataSize % 4 = 0
      ∧ 0 < p.codeSize ∧ 0 < p.stackSize ∧ 0 < p.dataSize
      ∧ p.stackBase = p.codeBase + p.codeSize ∧ p.stackBase + p.stackSize < p.dataBase
      ∧ p.dataBase + p.dataSize ≤ 2 ^ 32 ∧ 1 ≤ p.maxInstructions := by
  simp only [Params.wellFormed, Bool.and_eq_true, beq_iff_eq, decide_eq_true_eq, and_assoc] at h
  exact h

/-! ## Regions as inequalities (R30) -/

theorem inCode_iff (p : Params) (a : Nat) :
    inCode p a = true ↔ p.codeBase ≤ a ∧ a < p.codeBase + p.codeSize := by
  rw [inCode, Bool.and_eq_true, decide_eq_true_eq, decide_eq_true_eq, Params.codeEnd]

theorem inStack_iff (p : Params) (a : Nat) :
    inStack p a = true ↔ p.stackBase ≤ a ∧ a < p.stackBase + p.stackSize := by
  rw [inStack, Bool.and_eq_true, decide_eq_true_eq, decide_eq_true_eq, Params.stackEnd]

theorem inData_iff (p : Params) (a : Nat) :
    inData p a = true ↔ p.dataBase ≤ a ∧ a < p.dataBase + p.dataSize := by
  rw [inData, Bool.and_eq_true, decide_eq_true_eq, decide_eq_true_eq, Params.dataEnd]

theorem inRegion_iff (p : Params) (a : Nat) :
    inRegion p a = true ↔
      (p.codeBase ≤ a ∧ a < p.codeBase + p.codeSize) ∨ (p.stackBase ≤ a ∧ a < p.stackBase + p.stackSize)
        ∨ (p.dataBase ≤ a ∧ a < p.dataBase + p.dataSize) := by
  simp [inRegion, inCode_iff, inStack_iff, inData_iff, or_assoc]

/-- The bounds check, byte by byte (R32). -/
theorem valid_iff (p : Params) (a : Word) (n : Nat) :
    valid p a n = true ↔ ∀ i < n, a.toNat + i < 2 ^ 32 ∧ inRegion p (a.toNat + i) = true := by
  simp [valid]

/-- Every byte of a valid access is in some region. -/
theorem inRegion_of_valid {p : Params} {a : Word} {n x : Nat} (h : valid p a n = true)
    (h1 : a.toNat ≤ x) (h2 : x < a.toNat + n) : inRegion p x = true := by
  have := ((valid_iff p a n).1 h (x - a.toNat) (by omega)).2
  rwa [show a.toNat + (x - a.toNat) = x by omega] at this

/-- A word is valid in the code-and-stack band or in the data band, and nowhere else (R33). -/
theorem valid_four_iff {p : Params} (hp : p.wellFormed = true) (a : Word) :
    valid p a 4 = true ↔
      (p.codeBase ≤ a.toNat ∧ a.toNat + 4 ≤ p.stackBase + p.stackSize)
        ∨ (p.dataBase ≤ a.toNat ∧ a.toNat + 4 ≤ p.dataBase + p.dataSize) := by
  have hf := params_facts hp
  simp only [valid_iff, inRegion_iff]
  constructor
  · intro h
    have h0 := h 0 (by omega)
    have h3 := h 3 (by omega)
    omega
  · intro h i hi
    omega

/-- A fetch inside the code region is always valid (R118). -/
theorem valid_of_inCode {p : Params} (hp : p.wellFormed = true) {a : Word} (h : inCode p a.toNat = true) :
    valid p a 4 = true := by
  have hf := params_facts hp
  rw [inCode_iff] at h
  rw [valid_four_iff hp]
  omega

/-! ## The primitives (R34, R35) -/

theorem memRead_valid {s : State} {a : Word} {n : Nat} (h : valid s.params a n = true) :
    memRead s a n = Memory.readBytes s.mem a.toNat n := by simp [memRead, h]

theorem memRead_invalid {s : State} {a : Word} {n : Nat} (h : valid s.params a n = false) :
    memRead s a n = 0 := by simp [memRead, h]

theorem memWrite_valid_mem {s : State} {a : Word} {n v : Nat} (h : valid s.params a n = true) :
    (memWrite s a n v).mem = Memory.writeBytes s.mem a.toNat n v := by simp [memWrite, h]

theorem memWrite_invalid {s : State} {a : Word} {n v : Nat} (h : valid s.params a n = false) :
    memWrite s a n v = s := by simp [memWrite, h]

theorem readWord_valid {s : State} {a : Word} (h : valid s.params a 4 = true) :
    readWord s a = Memory.byte s.mem (a.toNat + 3) ++ Memory.byte s.mem (a.toNat + 2)
      ++ Memory.byte s.mem (a.toNat + 1) ++ Memory.byte s.mem a.toNat := by
  rw [readWord, memRead_valid h, Memory.readBytes_four]

/-- A valid word read, as a number: the four bytes, the lowest address least significant (R34, R37). -/
theorem readWord_toNat {s : State} {a : Word} (h : valid s.params a 4 = true) :
    (readWord s a).toNat = (Memory.byte s.mem a.toNat).toNat
      + (Memory.byte s.mem (a.toNat + 1)).toNat * 2 ^ 8
      + (Memory.byte s.mem (a.toNat + 2)).toNat * 2 ^ 16
      + (Memory.byte s.mem (a.toNat + 3)).toNat * 2 ^ 24 := by
  rw [readWord_valid h]
  refine (Memory.toNat_four_bytes _ _ _ _).trans ?_
  omega

theorem readWord_invalid {s : State} {a : Word} (h : valid s.params a 4 = false) : readWord s a = 0#32 := by
  rw [readWord, memRead_invalid h]

/-- A read sees the memory and the parameters and nothing else. -/
theorem readWord_congr {s t : State} (hm : t.mem = s.mem) (hp : t.params = s.params) (a : Word) :
    readWord t a = readWord s a := by
  simp only [readWord, memRead, hm, hp]

theorem writeWord_valid_mem {s : State} {a v : Word} (h : valid s.params a 4 = true) :
    (writeWord s a v).mem = Memory.writeBytes s.mem a.toNat 4 v.toNat := memWrite_valid_mem h

theorem writeWord_invalid {s : State} {a v : Word} (h : valid s.params a 4 = false) : writeWord s a v = s :=
  memWrite_invalid h

theorem writeWord_wf {s : State} (hm : Memory.wf s.mem) (a v : Word) : Memory.wf (writeWord s a v).mem := by
  cases h : valid s.params a 4 with
  | false => rwa [writeWord_invalid h]
  | true => rw [writeWord_valid_mem h]; exact Memory.wf_writeBytes hm _ _ _

/-- A store lists no byte outside the regions. -/
theorem writeWord_inRegions {s : State} (hm : ∀ c ∈ s.mem, inRegion s.params c.1 = true) (a v : Word) :
    ∀ c ∈ (writeWord s a v).mem, inRegion s.params c.1 = true := by
  intro c hc
  cases h : valid s.params a 4 with
  | false => rw [writeWord_invalid h] at hc; exact hm c hc
  | true =>
    rw [writeWord_valid_mem h] at hc
    rcases Memory.mem_writeBytes hc with hc | ⟨h1, h2⟩
    · exact hm c hc
    · exact inRegion_of_valid h h1 h2

/-- The round trip of R36. -/
theorem readWord_writeWord {s : State} (hm : Memory.wf s.mem) {a v : Word} (h : valid s.params a 4 = true) :
    readWord (writeWord s a v) a = v := by
  rw [readWord, memRead_valid (by simpa using h), writeWord_valid_mem h, Memory.readBytes_writeBytes hm,
    Nat.mod_eq_of_lt (by simpa using v.isLt), BitVec.ofNat_toNat, BitVec.setWidth_eq]

/-- Bytes outside a store are unchanged (R35). -/
theorem byte_writeWord_outside {s : State} (hm : Memory.wf s.mem) (a v : Word) {x : Nat}
    (hx : x < a.toNat ∨ a.toNat + 4 ≤ x) : Memory.byte (writeWord s a v).mem x = Memory.byte s.mem x := by
  cases h : valid s.params a 4 with
  | false => rw [writeWord_invalid h]
  | true => rw [writeWord_valid_mem h, Memory.byte_writeBytes_outside hm hx]

/-- Bytes inside a valid store are those of the value (R35). -/
theorem byte_writeWord_inside {s : State} (hm : Memory.wf s.mem) {a v : Word}
    (h : valid s.params a 4 = true) {i : Nat} (hi : i < 4) :
    Memory.byte (writeWord s a v).mem (a.toNat + i) = BitVec.ofNat 8 (v.toNat >>> (8 * i)) := by
  rw [writeWord_valid_mem h, Memory.byte_writeBytes_inside hm hi]

end Sys2Proof.Machine
end

