-- ==== Sys2Proof/Laws/Commit.lean ====
section
/-!
SUPPORT. What commit and each shape of retirement do, said once (R120, R122).
-/

namespace Sys2Proof.Machine

/-! ## The frame predicates -/

theorem sameMem_of_mem_eq {s t : State} (h : t.mem = s.mem) : SameMem s t := fun a => by rw [h]

/-- Writing register 0 changes no register. -/
theorem sameRegs_of_onlyReg_zero {s t : State} (h : OnlyReg 0#5 s t) : SameRegs s t := by
  intro r
  by_cases hr : r = 0#5
  · subst hr
    rw [readReg_zero, readReg_zero]
  · exact h.1 r hr

/-! ## Commit, field by field -/

@[simp] theorem commitStore_none (s : State) : commitStore s none = s := rfl
@[simp] theorem commitStore_some (s : State) (r : Word × Word) :
    commitStore s (some r) = writeWord s r.1 r.2 := rfl
@[simp] theorem commitReg_none (s : State) : commitReg s none = s := rfl
@[simp] theorem commitReg_some (s : State) (r : RegIx × Word) :
    commitReg s (some r) = writeReg s r.1 r.2 := rfl

theorem commit_pc (r : Effects) (s : State) : (commit r s).pc = r.nextPc := rfl

/-- Whatever a record holds, its commit retires. -/
theorem commit_retired (r : Effects) (s : State) : Retired s (commit r s) := by
  obtain ⟨rw, st, pc⟩ := r
  cases rw <;> cases st <;> constructor <;> simp [commit]

theorem commit_mem_of_no_store (r : Effects) (s : State) (h : r.store = none) : (commit r s).mem = s.mem := by
  obtain ⟨rw, st, pc⟩ := r
  simp only at h
  subst h
  cases rw <;> simp [commit]

theorem commit_mem_of_store (r : Effects) (s : State) {a v : Word} (h : r.store = some (a, v)) :
    (commit r s).mem = (writeWord s a v).mem := by
  obtain ⟨rw, st, pc⟩ := r
  simp only at h
  subst h
  cases rw <;> simp [commit]

theorem readReg_commit_of_no_write (r : Effects) (s : State) (h : r.regWrite = none) (i : RegIx) :
    readReg (commit r s) i = readReg s i := by
  obtain ⟨rw, st, pc⟩ := r
  simp only at h
  subst h
  cases st <;> simp [commit]

theorem readReg_commit_other {r : Effects} {s : State} {rd : RegIx} {v : Word} (h : r.regWrite = some (rd, v))
    {i : RegIx} (hi : i ≠ rd) : readReg (commit r s) i = readReg s i := by
  obtain ⟨rw, st, pc⟩ := r
  simp only at h
  subst h
  cases st <;> simp [commit, readReg_writeReg_other _ hi]

/-! ## The four shapes of retirement (R120) -/

/-- R-group, `addi`, `lw`: one register, `pc + 4`, no byte of memory. -/
theorem retireReg_spec (rd : RegIx) (v : Word) (s : State) :
    ∃ t, retireReg rd v s = .next t ∧ (rd ≠ 0#5 → readReg t rd = v) ∧ OnlyReg rd s t
      ∧ t.mem = s.mem ∧ t.pc = sequentialPc s ∧ Retired s t := by
  refine ⟨_, rfl, fun h => ?_, ⟨fun r hr => ?_, readReg_zero _⟩, ?_, rfl, commit_retired _ _⟩
  · simpa [commit] using readReg_writeReg_same s h v
  · simpa [commit] using readReg_writeReg_other s hr v
  · exact commit_mem_of_no_store _ _ rfl

/-- `sw`: one store, `pc + 4`, no register. -/
theorem retireStore_spec (ea v : Word) (s : State) :
    ∃ t, retireStore ea v s = .next t ∧ SameRegs s t ∧ t.mem = (writeWord s ea v).mem
      ∧ t.pc = sequentialPc s ∧ Retired s t :=
  ⟨_, rfl, readReg_commit_of_no_write _ _ rfl, commit_mem_of_store _ _ rfl, rfl, commit_retired _ _⟩

/-- Branches: only the pc. -/
theorem retireBranch_spec (taken : Bool) (off : BitVec 13) (s : State) :
    ∃ t, retireBranch taken off s = .next t ∧ SameRegs s t ∧ t.mem = s.mem
      ∧ t.pc = (if taken then branchTarget s off else sequentialPc s) ∧ Retired s t :=
  ⟨_, rfl, readReg_commit_of_no_write _ _ rfl, commit_mem_of_no_store _ _ rfl, rfl, commit_retired _ _⟩

/-- `jalr`: the link and the pc. -/
theorem retireJump_spec (rd : RegIx) (target : Word) (s : State) :
    ∃ t, retireJump rd target s = .next t ∧ (rd ≠ 0#5 → readReg t rd = sequentialPc s) ∧ OnlyReg rd s t
      ∧ t.mem = s.mem ∧ t.pc = target ∧ Retired s t := by
  refine ⟨_, rfl, fun h => ?_, ⟨fun r hr => ?_, readReg_zero _⟩, ?_, rfl, commit_retired _ _⟩
  · simpa [commit] using readReg_writeReg_same s h _
  · simpa [commit] using readReg_writeReg_other s hr _
  · exact commit_mem_of_no_store _ _ rfl

/-! ## Every instruction at once -/

/-- Every instruction retires in every state. -/
theorem exec_retires (i : Instr) (s : State) : ∃ t, exec i s = .next t ∧ Retired s t := by
  cases i <;> exact ⟨_, rfl, commit_retired _ _⟩

/-- The two ways an instruction can leave memory: as it was, or with the one store of `sw` (R120). -/
theorem exec_mem {i : Instr} {s t : State} (h : exec i s = .next t) :
    t.mem = s.mem ∨ ∃ rs2 rs1 imm, i = .sw rs2 rs1 imm
      ∧ t.mem = (writeWord s (effectiveAddress s rs1 imm) (readReg s rs2)).mem := by
  cases i <;> cases h
  case sw rs2 rs1 imm => exact .inr ⟨rs2, rs1, imm, rfl, commit_mem_of_store _ _ rfl⟩
  all_goals exact .inl (commit_mem_of_no_store _ _ rfl)

end Sys2Proof.Machine
end

