-- ==== Sys2Proof/Laws/Decode.lean ====
section
/-!
SUPPORT. What the fields, the formats, the opcode map and the decoder do (R50 to R65), as arithmetic on words.
-/

namespace Sys2Proof

/-! ## Slices and concatenations as numbers (R8) -/

theorem toNat_append_low {n m : Nat} (x : BitVec n) (y : BitVec m) :
    (x ++ y).toNat = x.toNat * 2 ^ m + y.toNat := by
  rw [BitVec.toNat_append, ← Nat.shiftLeft_add_eq_or_of_lt y.isLt, Nat.shiftLeft_eq]

theorem toNat_slice {n : Nat} (hi lo : Nat) (w : BitVec n) :
    (w.extractLsb hi lo).toNat = w.toNat / 2 ^ lo % 2 ^ (hi - lo + 1) := by
  rw [BitVec.extractLsb_toNat, Nat.shiftRight_eq_div_pow]

theorem opcodeField_toNat (w : Word) : (opcodeField w).toNat = w.toNat % 128 := by
  rw [opcodeField, toNat_slice]; simp
theorem rdField_toNat (w : Word) : (rdField w).toNat = w.toNat / 2 ^ 7 % 32 := toNat_slice 11 7 w
theorem funct3Field_toNat (w : Word) : (funct3Field w).toNat = w.toNat / 2 ^ 12 % 8 := toNat_slice 14 12 w
theorem rs1Field_toNat (w : Word) : (rs1Field w).toNat = w.toNat / 2 ^ 15 % 32 := toNat_slice 19 15 w
theorem rs2Field_toNat (w : Word) : (rs2Field w).toNat = w.toNat / 2 ^ 20 % 32 := toNat_slice 24 20 w
theorem funct7Field_toNat (w : Word) : (funct7Field w).toNat = w.toNat / 2 ^ 25 % 128 := toNat_slice 31 25 w
theorem iField_toNat (w : Word) : (iField w).toNat = w.toNat / 2 ^ 20 % 4096 := toNat_slice 31 20 w

theorem sField_toNat (w : Word) :
    (sField w).toNat = w.toNat / 2 ^ 25 % 128 * 32 + w.toNat / 2 ^ 7 % 32 := by
  refine (toNat_append_low (w.extractLsb 31 25) (w.extractLsb 11 7)).trans ?_
  rw [toNat_slice, toNat_slice]
  rfl

theorem bField_toNat (w : Word) :
    (bField w).toNat = w.toNat / 2 ^ 31 % 2 * 4096 + w.toNat / 2 ^ 7 % 2 * 2048
      + w.toNat / 2 ^ 25 % 64 * 32 + w.toNat / 2 ^ 8 % 16 * 2 := by
  refine (toNat_append_low (w.extractLsb 31 31 ++ w.extractLsb 7 7 ++ w.extractLsb 30 25 ++ w.extractLsb 11 8)
    0#1).trans ?_
  rw [toNat_append_low, toNat_append_low, toNat_append_low, toNat_slice, toNat_slice, toNat_slice, toNat_slice]
  simp only [BitVec.toNat_ofNat]
  omega

/-- A decoded branch offset is even (R54). -/
theorem evenOffset_bField (w : Word) : evenOffset (bField w) = true := by
  have h : (bField w).toNat % 2 = 0 := by rw [bField_toNat]; omega
  simp only [evenOffset, BitVec.getLsbD, Nat.testBit_zero, beq_iff_eq, decide_eq_false_iff_not]
  omega

theorem evenOffset_iff (off : BitVec 13) : evenOffset off = true ↔ off.toNat % 2 = 0 := by
  simp only [evenOffset, BitVec.getLsbD, Nat.testBit_zero, beq_iff_eq, decide_eq_false_iff_not]
  omega

/-! ## The formats as numbers (R59) -/

theorem formatR_toNat (f7 : BitVec 7) (rs2 rs1 : RegIx) (f3 : BitVec 3) (rd : RegIx) (op : BitVec 7) :
    (formatR f7 rs2 rs1 f3 rd op).toNat = f7.toNat * 2 ^ 25 + rs2.toNat * 2 ^ 20 + rs1.toNat * 2 ^ 15
      + f3.toNat * 2 ^ 12 + rd.toNat * 2 ^ 7 + op.toNat := by
  refine (toNat_append_low (f7 ++ rs2 ++ rs1 ++ f3 ++ rd) op).trans ?_
  rw [toNat_append_low, toNat_append_low, toNat_append_low, toNat_append_low]
  omega

theorem formatI_toNat (imm : BitVec 12) (rs1 : RegIx) (f3 : BitVec 3) (rd : RegIx) (op : BitVec 7) :
    (formatI imm rs1 f3 rd op).toNat = imm.toNat * 2 ^ 20 + rs1.toNat * 2 ^ 15
      + f3.toNat * 2 ^ 12 + rd.toNat * 2 ^ 7 + op.toNat := by
  refine (toNat_append_low (imm ++ rs1 ++ f3 ++ rd) op).trans ?_
  rw [toNat_append_low, toNat_append_low, toNat_append_low]
  omega

/-- Format S is format R with the immediate's two pieces in the places of `funct7` and `rd`. -/
theorem formatS_eq (imm : BitVec 12) (rs2 rs1 : RegIx) (f3 : BitVec 3) (op : BitVec 7) :
    formatS imm rs2 rs1 f3 op = formatR (imm.extractLsb 11 5) rs2 rs1 f3 (imm.extractLsb 4 0) op := rfl

/-- Format B is format R with the offset's four pieces in the places of `funct7` and `rd`. -/
theorem formatB_eq (off : BitVec 13) (rs2 rs1 : RegIx) (f3 : BitVec 3) (op : BitVec 7) :
    formatB off rs2 rs1 f3 op = formatR (off.extractLsb 12 12 ++ off.extractLsb 10 5) rs2 rs1 f3
      (off.extractLsb 4 1 ++ off.extractLsb 11 11) op := by
  apply BitVec.eq_of_toNat_eq
  refine (toNat_append_low (off.extractLsb 12 12 ++ off.extractLsb 10 5 ++ rs2 ++ rs1 ++ f3
    ++ off.extractLsb 4 1 ++ off.extractLsb 11 11) op).trans ?_
  have h1 := toNat_append_low (off.extractLsb 12 12) (off.extractLsb 10 5)
  have h2 := toNat_append_low (off.extractLsb 4 1) (off.extractLsb 11 11)
  rw [formatR_toNat, h1, h2]
  rw [toNat_append_low, toNat_append_low, toNat_append_low, toNat_append_low, toNat_append_low,
    toNat_append_low]
  omega

/-! ## S-imm and B-imm as pieces of `funct7` and `rd` -/

theorem sField_eq (w : Word) : sField w = funct7Field w ++ rdField w := rfl

/-- B-imm from the bits of the `funct7` and `rd` fields (R54). -/
def bJoin (f7 : BitVec 7) (rd : RegIx) : BitVec 13 :=
  f7.extractLsb 6 6 ++ rd.extractLsb 0 0 ++ f7.extractLsb 5 0 ++ rd.extractLsb 4 1 ++ 0#1

theorem bJoin_toNat (f7 : BitVec 7) (rd : RegIx) :
    (bJoin f7 rd).toNat = f7.toNat / 64 % 2 * 4096 + rd.toNat % 2 * 2048 + f7.toNat % 64 * 32
      + rd.toNat / 2 % 16 * 2 := by
  refine (toNat_append_low (f7.extractLsb 6 6 ++ rd.extractLsb 0 0 ++ f7.extractLsb 5 0 ++ rd.extractLsb 4 1)
    0#1).trans ?_
  rw [toNat_append_low, toNat_append_low, toNat_append_low, toNat_slice, toNat_slice, toNat_slice, toNat_slice]
  simp only [BitVec.toNat_ofNat]
  omega

theorem bField_eq (w : Word) : bField w = bJoin (funct7Field w) (rdField w) := by
  apply BitVec.eq_of_toNat_eq
  rw [bField_toNat, bJoin_toNat, funct7Field_toNat, rdField_toNat]
  have h1 : w.toNat / 2 ^ 25 % 128 / 64 % 2 = w.toNat / 2 ^ 31 % 2 := by omega
  have h2 : w.toNat / 2 ^ 7 % 32 % 2 = w.toNat / 2 ^ 7 % 2 := by omega
  have h3 : w.toNat / 2 ^ 25 % 128 % 64 = w.toNat / 2 ^ 25 % 64 := by omega
  have h4 : w.toNat / 2 ^ 7 % 32 / 2 % 16 = w.toNat / 2 ^ 8 % 16 := by omega
  rw [h1, h2, h3, h4]

/-- The four pieces of an even number of 13 bits, from the top: 1, 1, 6 and 4 bits. -/
theorem pieces_of_sum {n a d b c : Nat} (ha : a < 2) (hd : d < 2) (hb : b < 64) (hc : c < 16)
    (h : n = a * 4096 + d * 2048 + b * 32 + c * 2) :
    n / 2 ^ 12 % 2 = a ∧ n / 2 ^ 11 % 2 = d ∧ n / 2 ^ 5 % 64 = b ∧ n / 2 ^ 1 % 16 = c := by
  refine ⟨?_, ?_, ?_, ?_⟩ <;> omega

theorem sum_of_pieces {n : Nat} (h : n < 8192) (h2 : n % 2 = 0) :
    n / 2 ^ 12 % 2 * 4096 + n / 2 ^ 11 % 2 * 2048 + n / 2 ^ 5 % 64 * 32 + n / 2 ^ 1 % 16 * 2 = n := by
  omega

theorem rejoin {a d b c : Nat} (ha : a < 2) (hd : d < 2) (hb : b < 64) (hc : c < 16) :
    (a * 64 + b) / 64 % 2 * 4096 + (c * 2 + d) % 2 * 2048 + (a * 64 + b) % 64 * 32 + (c * 2 + d) / 2 % 16 * 2
      = a * 4096 + d * 2048 + b * 32 + c * 2 := by
  omega

/-- The four pieces of an even offset give it back. -/
theorem bJoin_pieces {off : BitVec 13} (h : evenOffset off = true) :
    bJoin (off.extractLsb 12 12 ++ off.extractLsb 10 5) (off.extractLsb 4 1 ++ off.extractLsb 11 11) = off := by
  rw [evenOffset_iff] at h
  have hsum := sum_of_pieces off.isLt h
  have h1 := (toNat_append_low (off.extractLsb 12 12) (off.extractLsb 10 5)).trans
    (congrArg₂ (fun x y => x * 64 + y) (toNat_slice 12 12 off) (toNat_slice 10 5 off))
  have h2 := (toNat_append_low (off.extractLsb 4 1) (off.extractLsb 11 11)).trans
    (congrArg₂ (fun x y => x * 2 + y) (toNat_slice 4 1 off) (toNat_slice 11 11 off))
  apply BitVec.eq_of_toNat_eq
  rw [bJoin_toNat, h1, h2]
  refine Eq.trans ?_ hsum
  exact rejoin (Nat.mod_lt _ (by omega)) (Nat.mod_lt _ (by omega)) (Nat.mod_lt _ (by omega))
    (Nat.mod_lt _ (by omega))

/-- `funct7` and `rd` are the four pieces of the offset they make. -/
theorem pieces_bJoin (f7 : BitVec 7) (rd : RegIx) :
    (bJoin f7 rd).extractLsb 12 12 ++ (bJoin f7 rd).extractLsb 10 5 = f7
      ∧ (bJoin f7 rd).extractLsb 4 1 ++ (bJoin f7 rd).extractLsb 11 11 = rd := by
  have b1 := f7.isLt
  have b2 := rd.isLt
  obtain ⟨ha, hd, hb, hc⟩ := pieces_of_sum (Nat.mod_lt (f7.toNat / 64) (by omega : 0 < 2))
    (Nat.mod_lt rd.toNat (by omega : 0 < 2)) (Nat.mod_lt f7.toNat (by omega : 0 < 64))
    (Nat.mod_lt (rd.toNat / 2) (by omega : 0 < 16)) (bJoin_toNat f7 rd)
  constructor <;> apply BitVec.eq_of_toNat_eq
  · have h1 := (toNat_append_low ((bJoin f7 rd).extractLsb 12 12) ((bJoin f7 rd).extractLsb 10 5)).trans
      (congrArg₂ (fun x y => x * 64 + y) ((toNat_slice 12 12 (bJoin f7 rd)).trans ha)
        ((toNat_slice 10 5 (bJoin f7 rd)).trans hb))
    exact h1.trans (by omega)
  · have h1 := (toNat_append_low ((bJoin f7 rd).extractLsb 4 1) ((bJoin f7 rd).extractLsb 11 11)).trans
      (congrArg₂ (fun x y => x * 2 + y) ((toNat_slice 4 1 (bJoin f7 rd)).trans hc)
        ((toNat_slice 11 11 (bJoin f7 rd)).trans hd))
    exact h1.trans (by omega)

/-- The two pieces of a 12-bit immediate give it back. -/
theorem sJoin_pieces (imm : BitVec 12) : imm.extractLsb 11 5 ++ imm.extractLsb 4 0 = imm := by
  have b := imm.isLt
  have h1 := toNat_append_low (imm.extractLsb 11 5) (imm.extractLsb 4 0)
  have g1 := toNat_slice 11 5 imm
  have g2 := toNat_slice 4 0 imm
  apply BitVec.eq_of_toNat_eq
  refine h1.trans ?_
  rw [g1, g2]
  omega

theorem pieces_sJoin (f7 : BitVec 7) (rd : RegIx) :
    (f7 ++ rd).extractLsb 11 5 = f7 ∧ (f7 ++ rd).extractLsb 4 0 = rd := by
  have b1 := f7.isLt
  have b2 := rd.isLt
  have h := toNat_append_low f7 rd
  constructor <;> apply BitVec.eq_of_toNat_eq <;> rw [toNat_slice, h] <;> omega

/-! ## The opcode map (R61) -/

theorem hits_iff (r : Row) (w : Word) :
    r.hits w = true ↔ opcodeField w = r.opcode ∧ funct3Field w = r.funct3
      ∧ ∀ f7 ∈ r.funct7, funct7Field w = f7 := by
  unfold Row.hits
  cases r.funct7 <;> simp [and_assoc]

/-- Two rows' keys can be met by one word. -/
def Row.overlaps (a b : Row) : Bool :=
  a.opcode == b.opcode && a.funct3 == b.funct3
    && match a.funct7, b.funct7 with
       | some x, some y => x == y
       | _, _ => true

/-- The rows are pairwise disjoint (R61). -/
theorem rows_disjoint :
    ∀ a ∈ Config.encoding.rows, ∀ b ∈ Config.encoding.rows, a.overlaps b = true → a = b := by decide

theorem overlaps_of_hits {a b : Row} {w : Word} (ha : a.hits w = true) (hb : b.hits w = true) :
    a.overlaps b = true := by
  rw [hits_iff] at ha hb
  obtain ⟨a1, a2, a3⟩ := ha
  obtain ⟨b1, b2, b3⟩ := hb
  unfold Row.overlaps
  rw [← a1, ← a2, ← b1, ← b2]
  cases h1 : a.funct7 <;> cases h2 : b.funct7 <;> simp
  rw [← a3 _ h1, ← b3 _ h2]

/-- At most one row matches a word (R61). -/
theorem row_unique {a b : Row} (ha : a ∈ Config.encoding.rows) (hb : b ∈ Config.encoding.rows) {w : Word}
    (h1 : a.hits w = true) (h2 : b.hits w = true) : a = b :=
  rows_disjoint a ha b hb (overlaps_of_hits h1 h2)

/-- A word that meets a row's key is that row's instruction. -/
theorem decode_of_hits {r : Row} (hr : r ∈ Config.encoding.rows) {w : Word} (h : r.hits w = true) :
    decode w = .ok (r.mnemonic.build w) := by
  unfold decode decodeWith
  cases hf : Config.encoding.rows.find? fun r => r.hits w with
  | none => exact absurd h (by simpa using List.find?_eq_none.1 hf r hr)
  | some r' =>
    have h' := List.find?_some hf
    rw [row_unique (List.mem_of_find?_eq_some hf) hr h' h]

/-- A decoded word meets its row's key. -/
theorem hits_of_decode {w : Word} {i : Instr} (h : decode w = .ok i) :
    ∃ r ∈ Config.encoding.rows, r.hits w = true ∧ i = r.mnemonic.build w := by
  unfold decode decodeWith at h
  cases hf : Config.encoding.rows.find? fun r => r.hits w with
  | none => rw [hf] at h; dsimp only at h; split at h <;> cases h
  | some r =>
    rw [hf] at h
    have hits := List.find?_some hf
    exact ⟨r, List.mem_of_find?_eq_some hf, hits, (by cases h; rfl)⟩

/-- A word is illegal exactly when no row matches (R63). -/
theorem decode_error_iff (w : Word) :
    (∃ e, decode w = .error e) ↔ ∀ r ∈ Config.encoding.rows, r.hits w = false := by
  constructor
  · rintro ⟨e, he⟩ r hr
    cases h : r.hits w with
    | false => rfl
    | true => rw [decode_of_hits hr h] at he; cases he
  · intro h
    cases hd : decode w with
    | error e => exact ⟨e, rfl⟩
    | ok i =>
      obtain ⟨r, hr, h1, -⟩ := hits_of_decode hd
      rw [h r hr] at h1; cases h1

/-- What the decoder gives has an encoding. -/
theorem wellFormed_build (m : Mnemonic) (w : Word) : (m.build w).wellFormed = true := by
  cases m <;> first | rfl | exact evenOffset_bField w

theorem wellFormed_of_decode {w : Word} {i : Instr} (h : decode w = .ok i) : i.wellFormed = true := by
  obtain ⟨r, -, -, rfl⟩ := hits_of_decode h
  exact wellFormed_build _ _

/-! ## Keys, masks and matches (R61) -/

/-- Equal fields, equal words: the six fields tile the word (R50). -/
theorem word_eq_of_fields {w v : Word} (h1 : funct7Field w = funct7Field v) (h2 : rs2Field w = rs2Field v)
    (h3 : rs1Field w = rs1Field v) (h4 : funct3Field w = funct3Field v) (h5 : rdField w = rdField v)
    (h6 : opcodeField w = opcodeField v) : w = v := by
  have g1 := congrArg BitVec.toNat h1
  have g2 := congrArg BitVec.toNat h2
  have g3 := congrArg BitVec.toNat h3
  have g4 := congrArg BitVec.toNat h4
  have g5 := congrArg BitVec.toNat h5
  have g6 := congrArg BitVec.toNat h6
  rw [funct7Field_toNat, funct7Field_toNat] at g1
  rw [rs2Field_toNat, rs2Field_toNat] at g2
  rw [rs1Field_toNat, rs1Field_toNat] at g3
  rw [funct3Field_toNat, funct3Field_toNat] at g4
  rw [rdField_toNat, rdField_toNat] at g5
  rw [opcodeField_toNat, opcodeField_toNat] at g6
  have hw := w.isLt
  have hv := v.isLt
  exact BitVec.eq_of_toNat_eq (by omega)

theorem slice_and (hi lo : Nat) (w m : Word) :
    (w &&& m).extractLsb hi lo = w.extractLsb hi lo &&& m.extractLsb hi lo := by
  ext i hi
  simp

/-- The six fields of a word of format R. -/
theorem fields_formatR (f7 : BitVec 7) (rs2 rs1 : RegIx) (f3 : BitVec 3) (rd : RegIx) (op : BitVec 7) :
    funct7Field (formatR f7 rs2 rs1 f3 rd op) = f7 ∧ rs2Field (formatR f7 rs2 rs1 f3 rd op) = rs2
      ∧ rs1Field (formatR f7 rs2 rs1 f3 rd op) = rs1 ∧ funct3Field (formatR f7 rs2 rs1 f3 rd op) = f3
      ∧ rdField (formatR f7 rs2 rs1 f3 rd op) = rd ∧ opcodeField (formatR f7 rs2 rs1 f3 rd op) = op := by
  have b1 := f7.isLt
  have b2 := rs2.isLt
  have b3 := rs1.isLt
  have b4 := f3.isLt
  have b5 := rd.isLt
  have b6 := op.isLt
  refine ⟨?_, ?_, ?_, ?_, ?_, ?_⟩ <;> apply BitVec.eq_of_toNat_eq <;>
    simp only [funct7Field_toNat, rs2Field_toNat, rs1Field_toNat, funct3Field_toNat, rdField_toNat,
      opcodeField_toNat, formatR_toNat] <;> omega

/-- The fields and the immediate of a word of format I. -/
theorem fields_formatI (imm : BitVec 12) (rs1 : RegIx) (f3 : BitVec 3) (rd : RegIx) (op : BitVec 7) :
    iField (formatI imm rs1 f3 rd op) = imm ∧ rs1Field (formatI imm rs1 f3 rd op) = rs1
      ∧ funct3Field (formatI imm rs1 f3 rd op) = f3 ∧ rdField (formatI imm rs1 f3 rd op) = rd
      ∧ opcodeField (formatI imm rs1 f3 rd op) = op := by
  have b1 := imm.isLt
  have b3 := rs1.isLt
  have b4 := f3.isLt
  have b5 := rd.isLt
  have b6 := op.isLt
  refine ⟨?_, ?_, ?_, ?_, ?_⟩ <;> apply BitVec.eq_of_toNat_eq <;>
    simp only [iField_toNat, rs1Field_toNat, funct3Field_toNat, rdField_toNat, opcodeField_toNat,
      formatI_toNat] <;> omega

/-- The fields and the immediate of a word of format S. -/
theorem fields_formatS (imm : BitVec 12) (rs2 rs1 : RegIx) (f3 : BitVec 3) (op : BitVec 7) :
    sField (formatS imm rs2 rs1 f3 op) = imm ∧ rs2Field (formatS imm rs2 rs1 f3 op) = rs2
      ∧ rs1Field (formatS imm rs2 rs1 f3 op) = rs1 ∧ funct3Field (formatS imm rs2 rs1 f3 op) = f3
      ∧ opcodeField (formatS imm rs2 rs1 f3 op) = op := by
  rw [formatS_eq, sField_eq]
  obtain ⟨h7, h2, h1, h3, hd, ho⟩ :=
    fields_formatR (imm.extractLsb 11 5) rs2 rs1 f3 (imm.extractLsb 4 0) op
  exact ⟨by rw [h7, hd]; exact sJoin_pieces imm, h2, h1, h3, ho⟩

/-- The fields of a word of format B, and its immediate when that is even. -/
theorem fields_formatB (off : BitVec 13) (rs2 rs1 : RegIx) (f3 : BitVec 3) (op : BitVec 7) :
    (evenOffset off = true → bField (formatB off rs2 rs1 f3 op) = off)
      ∧ rs2Field (formatB off rs2 rs1 f3 op) = rs2 ∧ rs1Field (formatB off rs2 rs1 f3 op) = rs1
      ∧ funct3Field (formatB off rs2 rs1 f3 op) = f3 ∧ opcodeField (formatB off rs2 rs1 f3 op) = op := by
  rw [formatB_eq, bField_eq]
  obtain ⟨h7, h2, h1, h3, hd, ho⟩ := fields_formatR (off.extractLsb 12 12 ++ off.extractLsb 10 5) rs2 rs1 f3
    (off.extractLsb 4 1 ++ off.extractLsb 11 11) op
  exact ⟨fun h => by rw [h7, hd]; exact bJoin_pieces h, h2, h1, h3, ho⟩

/-- Format I holds its immediate where format R holds `funct7` and `rs2`. -/
theorem formatI_of_fields (w : Word) :
    formatI (iField w) (rs1Field w) (funct3Field w) (rdField w) (opcodeField w) = w := by
  have hw := w.isLt
  apply BitVec.eq_of_toNat_eq
  simp only [iField_toNat, rs1Field_toNat, funct3Field_toNat, rdField_toNat, opcodeField_toNat, formatI_toNat]
  omega

theorem formatR_of_fields (w : Word) :
    formatR (funct7Field w) (rs2Field w) (rs1Field w) (funct3Field w) (rdField w) (opcodeField w) = w := by
  have hw := w.isLt
  apply BitVec.eq_of_toNat_eq
  simp only [funct7Field_toNat, rs2Field_toNat, rs1Field_toNat, funct3Field_toNat, rdField_toNat,
    opcodeField_toNat, formatR_toNat]
  omega

theorem formatS_of_fields (w : Word) :
    formatS (sField w) (rs2Field w) (rs1Field w) (funct3Field w) (opcodeField w) = w := by
  rw [formatS_eq, sField_eq, (pieces_sJoin _ _).1, (pieces_sJoin _ _).2]
  exact formatR_of_fields w

theorem formatB_of_fields (w : Word) :
    formatB (bField w) (rs2Field w) (rs1Field w) (funct3Field w) (opcodeField w) = w := by
  rw [formatB_eq, bField_eq, (pieces_bJoin _ _).1, (pieces_bJoin _ _).2]
  exact formatR_of_fields w

theorem pattern_fields (f7 : BitVec 7) (f3 : BitVec 3) (op : BitVec 7) :
    (f7 ++ 0#10 ++ f3 ++ 0#5 ++ op : Word) = formatR f7 0#5 0#5 f3 0#5 op := by
  apply BitVec.eq_of_toNat_eq
  rw [formatR_toNat]
  refine (toNat_append_low (f7 ++ 0#10 ++ f3 ++ 0#5) op).trans ?_
  rw [toNat_append_low, toNat_append_low, toNat_append_low]
  simp only [BitVec.toNat_ofNat]
  omega

/-- Exact match of the key is `w & mask = match` (R61). -/
theorem hits_iff_mask (r : Row) (w : Word) : r.hits w = true ↔ w &&& r.mask = r.pattern := by
  rw [hits_iff]
  obtain ⟨m, op, f3, f7⟩ := r
  have hf (x : BitVec 7) := fields_formatR x 0#5 0#5 f3 0#5 op
  cases f7 with
  | some f7 =>
    simp only [Row.mask, Row.pattern, pattern_fields, Option.mem_some_iff, forall_eq']
    constructor
    · rintro ⟨h1, h2, h3⟩
      obtain ⟨g1, g2, g3, g4, g5, g6⟩ := hf f7
      apply word_eq_of_fields
      · rw [g1, ← h3]; exact (slice_and _ _ _ _).trans (BitVec.and_allOnes ..)
      · rw [g2]; exact (slice_and _ _ _ _).trans (BitVec.and_zero ..)
      · rw [g3]; exact (slice_and _ _ _ _).trans (BitVec.and_zero ..)
      · rw [g4, ← h2]; exact (slice_and _ _ _ _).trans (BitVec.and_allOnes ..)
      · rw [g5]; exact (slice_and _ _ _ _).trans (BitVec.and_zero ..)
      · rw [g6, ← h1]; exact (slice_and _ _ _ _).trans (BitVec.and_allOnes ..)
    · intro h
      obtain ⟨g1, g2, g3, g4, g5, g6⟩ := hf f7
      rw [← h] at g1 g4 g6
      exact ⟨((slice_and _ _ _ _).trans (BitVec.and_allOnes ..)).symm.trans g6,
        ((slice_and _ _ _ _).trans (BitVec.and_allOnes ..)).symm.trans g4,
        ((slice_and _ _ _ _).trans (BitVec.and_allOnes ..)).symm.trans g1⟩
  | none =>
    have hz : (0#17 ++ f3 ++ 0#5 ++ op : Word) = formatR 0#7 0#5 0#5 f3 0#5 op := by
      apply BitVec.eq_of_toNat_eq
      rw [formatR_toNat]
      refine (toNat_append_low (0#17 ++ f3 ++ 0#5) op).trans ?_
      rw [toNat_append_low, toNat_append_low]
      simp only [BitVec.toNat_ofNat]
      omega
    simp only [Row.mask, Row.pattern, hz, Option.not_mem_none, false_imp_iff, implies_true, and_true]
    obtain ⟨g1, g2, g3, g4, g5, g6⟩ := hf 0#7
    constructor
    · rintro ⟨h1, h2⟩
      apply word_eq_of_fields
      · rw [g1]; exact (slice_and _ _ _ _).trans (BitVec.and_zero ..)
      · rw [g2]; exact (slice_and _ _ _ _).trans (BitVec.and_zero ..)
      · rw [g3]; exact (slice_and _ _ _ _).trans (BitVec.and_zero ..)
      · rw [g4, ← h2]; exact (slice_and _ _ _ _).trans (BitVec.and_allOnes ..)
      · rw [g5]; exact (slice_and _ _ _ _).trans (BitVec.and_zero ..)
      · rw [g6, ← h1]; exact (slice_and _ _ _ _).trans (BitVec.and_allOnes ..)
    · intro h
      rw [← h] at g4 g6
      exact ⟨((slice_and _ _ _ _).trans (BitVec.and_allOnes ..)).symm.trans g6,
        ((slice_and _ _ _ _).trans (BitVec.and_allOnes ..)).symm.trans g4⟩

/-! ## Bytes (R37) -/

/-- The four bytes of a word put together again. -/
theorem wordBytes_joined (w : Word) :
    (w.extractLsb 31 24 ++ w.extractLsb 23 16 ++ w.extractLsb 15 8 ++ w.extractLsb 7 0 : Word) = w := by
  have hw := w.isLt
  apply BitVec.eq_of_toNat_eq
  refine (toNat_append_low (w.extractLsb 31 24 ++ w.extractLsb 23 16 ++ w.extractLsb 15 8)
    (w.extractLsb 7 0)).trans ?_
  rw [toNat_append_low, toNat_append_low, toNat_slice, toNat_slice, toNat_slice, toNat_slice]
  omega

/-- Decoding a word's bytes is decoding the word. -/
theorem decodeBytes_wordBytes (w : Word) (rest : List Byte) :
    decodeBytes (wordBytes w ++ rest) = (match decode w with
      | .ok i => .ok (i, rest)
      | .error e => .error e) := by
  show (match decode (w.extractLsb 31 24 ++ w.extractLsb 23 16 ++ w.extractLsb 15 8 ++ w.extractLsb 7 0) with
    | .ok i => Except.ok (i, rest)
    | .error e => .error e) = _
  rw [wordBytes_joined]

end Sys2Proof
end

