-- ==== Sys2Proof/Laws/Image.lean ====
section
/-!
SUPPORT. What loading an image does (R163).
-/

namespace Sys2Proof.Machine

@[simp] theorem writeImage_regs (s : State) (a : Nat) (img : List Word) : (writeImage s a img).regs = s.regs := by
  induction img generalizing s a with
  | nil => rfl
  | cons w img ih => exact (ih _ _).trans (writeWord_regs ..)
@[simp] theorem writeImage_pc (s : State) (a : Nat) (img : List Word) : (writeImage s a img).pc = s.pc := by
  induction img generalizing s a with
  | nil => rfl
  | cons w img ih => exact (ih _ _).trans (writeWord_pc ..)
@[simp] theorem writeImage_instret (s : State) (a : Nat) (img : List Word) :
    (writeImage s a img).instret = s.instret := by
  induction img generalizing s a with
  | nil => rfl
  | cons w img ih => exact (ih _ _).trans (writeWord_instret ..)
@[simp] theorem writeImage_cycle (s : State) (a : Nat) (img : List Word) :
    (writeImage s a img).cycle = s.cycle := by
  induction img generalizing s a with
  | nil => rfl
  | cons w img ih => exact (ih _ _).trans (writeWord_cycle ..)
@[simp] theorem writeImage_halted (s : State) (a : Nat) (img : List Word) :
    (writeImage s a img).halted = s.halted := by
  induction img generalizing s a with
  | nil => rfl
  | cons w img ih => exact (ih _ _).trans (writeWord_halted ..)
@[simp] theorem writeImage_stopCause (s : State) (a : Nat) (img : List Word) :
    (writeImage s a img).stopCause = s.stopCause := by
  induction img generalizing s a with
  | nil => rfl
  | cons w img ih => exact (ih _ _).trans (writeWord_stopCause ..)
@[simp] theorem writeImage_params (s : State) (a : Nat) (img : List Word) :
    (writeImage s a img).params = s.params := by
  induction img generalizing s a with
  | nil => rfl
  | cons w img ih => exact (ih _ _).trans (writeWord_params ..)

theorem writeImage_wf {s : State} (hm : Memory.wf s.mem) (a : Nat) (img : List Word) :
    Memory.wf (writeImage s a img).mem := by
  induction img generalizing s a with
  | nil => exact hm
  | cons w img ih => exact ih (writeWord_wf hm _ _) _

theorem writeImage_inRegions {s : State} (hm : ∀ c ∈ s.mem, inRegion s.params c.1 = true) (a : Nat)
    (img : List Word) : ∀ c ∈ (writeImage s a img).mem, inRegion s.params c.1 = true := by
  induction img generalizing s a with
  | nil => exact hm
  | cons w img ih =>
    have := ih (s := writeWord s (BitVec.ofNat 32 a) w) (a := a + 4)
      (by rw [writeWord_params]; exact writeWord_inRegions hm _ _)
    rwa [writeWord_params] at this

end Sys2Proof.Machine
end

