-- ==== Sys2Proof/Laws/PerInstr.lean ====
section
/-!
SUPPORT. The per-instruction family `EncodeHitsRow`: an instruction's word meets the key of the row that bears
its name (R61, R65), one lemma per constructor.
-/

namespace Sys2Proof.Laws.EncodeHitsRow

/-- The row an instruction belongs to. -/
def mnemonicOf : Instr → Mnemonic
  | .add _ _ _ => .add
  | .sub _ _ _ => .sub
  | .slt _ _ _ => .slt
  | .srl _ _ _ => .srl
  | .or _ _ _ => .or
  | .and _ _ _ => .and
  | .addi _ _ _ => .addi
  | .lw _ _ _ => .lw
  | .sw _ _ _ => .sw
  | .beq _ _ _ => .beq
  | .bne _ _ _ => .bne
  | .blt _ _ _ => .blt
  | .jalr _ _ _ => .jalr

/-- Some row of the map bears the instruction's name, and its word meets that row's key. -/
def Statement (i : Instr) : Prop :=
  ∃ r ∈ Config.encoding.rows, r.mnemonic = mnemonicOf i ∧ r.hits (encode i) = true

theorem of_formatR {r : Row} {f7 : BitVec 7} (h7 : r.funct7 = some f7) (rs2 rs1 rd : RegIx) :
    r.hits (formatR f7 rs2 rs1 r.funct3 rd r.opcode) = true := by
  obtain ⟨g7, -, -, g3, -, g0⟩ := fields_formatR f7 rs2 rs1 r.funct3 rd r.opcode
  exact (hits_iff _ _).2 ⟨g0, g3, fun x hx => by rw [g7]; rw [h7] at hx; simpa using hx⟩

theorem of_formatI {r : Row} (h7 : r.funct7 = none) (imm : BitVec 12) (rs1 rd : RegIx) :
    r.hits (formatI imm rs1 r.funct3 rd r.opcode) = true := by
  obtain ⟨-, -, g3, -, g0⟩ := fields_formatI imm rs1 r.funct3 rd r.opcode
  exact (hits_iff _ _).2 ⟨g0, g3, fun x hx => by rw [h7] at hx; cases hx⟩

theorem of_formatS {r : Row} (h7 : r.funct7 = none) (imm : BitVec 12) (rs2 rs1 : RegIx) :
    r.hits (formatS imm rs2 rs1 r.funct3 r.opcode) = true := by
  obtain ⟨-, -, -, g3, g0⟩ := fields_formatS imm rs2 rs1 r.funct3 r.opcode
  exact (hits_iff _ _).2 ⟨g0, g3, fun x hx => by rw [h7] at hx; cases hx⟩

theorem of_formatB {r : Row} (h7 : r.funct7 = none) (off : BitVec 13) (rs2 rs1 : RegIx) :
    r.hits (formatB off rs2 rs1 r.funct3 r.opcode) = true := by
  obtain ⟨-, -, -, g3, g0⟩ := fields_formatB off rs2 rs1 r.funct3 r.opcode
  exact (hits_iff _ _).2 ⟨g0, g3, fun x hx => by rw [h7] at hx; cases hx⟩

theorem add (rd rs1 rs2 : RegIx) : Statement (.add rd rs1 rs2) :=
  ⟨⟨.add, _, _, _⟩, by decide, rfl, of_formatR rfl rs2 rs1 rd⟩
theorem sub (rd rs1 rs2 : RegIx) : Statement (.sub rd rs1 rs2) :=
  ⟨⟨.sub, _, _, _⟩, by decide, rfl, of_formatR rfl rs2 rs1 rd⟩
theorem slt (rd rs1 rs2 : RegIx) : Statement (.slt rd rs1 rs2) :=
  ⟨⟨.slt, _, _, _⟩, by decide, rfl, of_formatR rfl rs2 rs1 rd⟩
theorem srl (rd rs1 rs2 : RegIx) : Statement (.srl rd rs1 rs2) :=
  ⟨⟨.srl, _, _, _⟩, by decide, rfl, of_formatR rfl rs2 rs1 rd⟩
theorem or (rd rs1 rs2 : RegIx) : Statement (.or rd rs1 rs2) :=
  ⟨⟨.or, _, _, _⟩, by decide, rfl, of_formatR rfl rs2 rs1 rd⟩
theorem and (rd rs1 rs2 : RegIx) : Statement (.and rd rs1 rs2) :=
  ⟨⟨.and, _, _, _⟩, by decide, rfl, of_formatR rfl rs2 rs1 rd⟩
theorem addi (rd rs1 : RegIx) (imm : BitVec 12) : Statement (.addi rd rs1 imm) :=
  ⟨⟨.addi, _, _, _⟩, by decide, rfl, of_formatI rfl imm rs1 rd⟩
theorem lw (rd rs1 : RegIx) (imm : BitVec 12) : Statement (.lw rd rs1 imm) :=
  ⟨⟨.lw, _, _, _⟩, by decide, rfl, of_formatI rfl imm rs1 rd⟩
theorem sw (rs2 rs1 : RegIx) (imm : BitVec 12) : Statement (.sw rs2 rs1 imm) :=
  ⟨⟨.sw, _, _, _⟩, by decide, rfl, of_formatS rfl imm rs2 rs1⟩
theorem beq (rs1 rs2 : RegIx) (off : BitVec 13) : Statement (.beq rs1 rs2 off) :=
  ⟨⟨.beq, _, _, _⟩, by decide, rfl, of_formatB rfl off rs2 rs1⟩
theorem bne (rs1 rs2 : RegIx) (off : BitVec 13) : Statement (.bne rs1 rs2 off) :=
  ⟨⟨.bne, _, _, _⟩, by decide, rfl, of_formatB rfl off rs2 rs1⟩
theorem blt (rs1 rs2 : RegIx) (off : BitVec 13) : Statement (.blt rs1 rs2 off) :=
  ⟨⟨.blt, _, _, _⟩, by decide, rfl, of_formatB rfl off rs2 rs1⟩
theorem jalr (rd rs1 : RegIx) (imm : BitVec 12) : Statement (.jalr rd rs1 imm) :=
  ⟨⟨.jalr, _, _, _⟩, by decide, rfl, of_formatI rfl imm rs1 rd⟩

end Sys2Proof.Laws.EncodeHitsRow
end

