-- ==== Sys2Proof/Laws/Step.lean ====
section
/-!
SUPPORT. What the tests after a commit do, and everything a step can do, said once (R117).
-/

namespace Sys2Proof.Machine

/-! ## Lines 6 and 7 -/

/-- The three ends of a step that retired an instruction (R142, R143). -/
theorem afterCommit_cases (w : Word) (s : State) :
    (w = Config.haltWord ∧ afterCommit w s = stop .virtualHalt s)
      ∨ (w ≠ Config.haltWord ∧ s.params.maxInstructions ≤ s.instret
          ∧ afterCommit w s = stop .instructionCeiling s)
      ∨ (w ≠ Config.haltWord ∧ s.instret < s.params.maxInstructions ∧ afterCommit w s = s) := by
  unfold afterCommit
  by_cases h1 : w = Config.haltWord
  · exact .inl ⟨h1, if_pos h1⟩
  · rw [if_neg h1]
    by_cases h2 : s.params.maxInstructions ≤ s.instret
    · exact .inr (.inl ⟨h1, h2, if_pos h2⟩)
    · exact .inr (.inr ⟨h1, by omega, if_neg h2⟩)

@[simp] theorem afterCommit_regs (w : Word) (s : State) : (afterCommit w s).regs = s.regs := by
  rcases afterCommit_cases w s with ⟨-, h⟩ | ⟨-, -, h⟩ | ⟨-, -, h⟩ <;> rw [h] <;> rfl
@[simp] theorem afterCommit_pc (w : Word) (s : State) : (afterCommit w s).pc = s.pc := by
  rcases afterCommit_cases w s with ⟨-, h⟩ | ⟨-, -, h⟩ | ⟨-, -, h⟩ <;> rw [h] <;> rfl
@[simp] theorem afterCommit_instret (w : Word) (s : State) : (afterCommit w s).instret = s.instret := by
  rcases afterCommit_cases w s with ⟨-, h⟩ | ⟨-, -, h⟩ | ⟨-, -, h⟩ <;> rw [h] <;> rfl
@[simp] theorem afterCommit_cycle (w : Word) (s : State) : (afterCommit w s).cycle = s.cycle := by
  rcases afterCommit_cases w s with ⟨-, h⟩ | ⟨-, -, h⟩ | ⟨-, -, h⟩ <;> rw [h] <;> rfl
@[simp] theorem afterCommit_mem (w : Word) (s : State) : (afterCommit w s).mem = s.mem := by
  rcases afterCommit_cases w s with ⟨-, h⟩ | ⟨-, -, h⟩ | ⟨-, -, h⟩ <;> rw [h] <;> rfl
@[simp] theorem afterCommit_params (w : Word) (s : State) : (afterCommit w s).params = s.params := by
  rcases afterCommit_cases w s with ⟨-, h⟩ | ⟨-, -, h⟩ | ⟨-, -, h⟩ <;> rw [h] <;> rfl

@[simp] theorem readReg_afterCommit (w : Word) (s : State) (i : RegIx) :
    readReg (afterCommit w s) i = readReg s i := readReg_of_regs_eq (afterCommit_regs w s) i

/-! ## The step, line by line -/

theorem step_of_halted {s : State} (h : s.halted = true) : step s = .refused .halted := by
  simp [step, h]

theorem step_of_illegalParameters {s : State} (h1 : s.halted = false) (h2 : s.params.wellFormed = false) :
    step s = .refused .illegalParameters := by
  simp [step, h1, h2]

theorem step_outside_code {s : State} (hr : Running s) (h : inCode s.params s.pc.toNat = false) :
    step s = .next (stop .pcOutOfCode s) := by
  simp [step, hr.notHalted, hr.params, h]

theorem step_in_code {s : State} (hr : Running s) (h : inCode s.params s.pc.toNat = true) :
    step s = runWord (fetch s) s := by
  simp [step, hr.notHalted, hr.params, h]

theorem runWord_illegal {w : Word} {e : DecodeError} (h : decode w = .error e) (s : State) :
    runWord w s = .next (stop .illegalInstruction s) := by
  simp [runWord, h]

theorem runWord_legal {w : Word} {i : Instr} {s t : State} (h : decode w = .ok i) (ht : exec i s = .next t) :
    runWord w s = .next (afterCommit w t) := by
  simp [runWord, h, ht, finishStep]

/-- Everything a step that answers a next state can have done (R117). -/
theorem step_cases {s t : State} (h : step s = .next t) :
    Running s ∧
      ((inCode s.params s.pc.toNat = false ∧ t = stop .pcOutOfCode s)
        ∨ (inCode s.params s.pc.toNat = true ∧ (∃ e, decode (fetch s) = .error e)
            ∧ t = stop .illegalInstruction s)
        ∨ (inCode s.params s.pc.toNat = true ∧ ∃ i u, decode (fetch s) = .ok i ∧ exec i s = .next u
            ∧ t = afterCommit (fetch s) u)) := by
  cases hh : s.halted with
  | true => rw [step_of_halted hh] at h; cases h
  | false =>
    cases hp : s.params.wellFormed with
    | false => rw [step_of_illegalParameters hh hp] at h; cases h
    | true =>
      have hr : Running s := ⟨hh, hp⟩
      refine ⟨hr, ?_⟩
      cases hc : inCode s.params s.pc.toNat with
      | false => rw [step_outside_code hr hc] at h; cases h; exact .inl ⟨rfl, rfl⟩
      | true =>
        rw [step_in_code hr hc] at h
        cases hd : decode (fetch s) with
        | error e => rw [runWord_illegal hd] at h; cases h; exact .inr (.inl ⟨rfl, ⟨e, rfl⟩, rfl⟩)
        | ok i =>
          obtain ⟨u, hu, -⟩ := exec_retires i s
          rw [runWord_legal hd hu] at h
          cases h
          exact .inr (.inr ⟨rfl, i, u, rfl, hu, rfl⟩)

/-- A running core always has a next state (R116). -/
theorem step_of_running {s : State} (hr : Running s) : ∃ t, step s = .next t := by
  cases hc : inCode s.params s.pc.toNat with
  | false => exact ⟨_, step_outside_code hr hc⟩
  | true =>
    rw [step_in_code hr hc]
    cases hd : decode (fetch s) with
    | error e => exact ⟨_, runWord_illegal hd s⟩
    | ok i =>
      obtain ⟨u, hu, -⟩ := exec_retires i s
      exact ⟨_, runWord_legal hd hu⟩

/-! ## The placing of a word (log 7) -/

/-- The state `placeFetchWord` writes into can step, and its memory is untouched. -/
theorem readyToFetch_spec (s : State) :
    Running (readyToFetch s) ∧ inCode (readyToFetch s).params (readyToFetch s).pc.toNat = true
      ∧ (readyToFetch s).mem = s.mem ∧ (readyToFetch s).regs = s.regs := by
  have hcode : ∀ p : Params, p.wellFormed = true → inCode p (BitVec.ofNat 32 p.codeBase).toNat = true := by
    intro p hp
    have hf := params_facts hp
    rw [inCode_iff, BitVec.toNat_ofNat, Nat.mod_eq_of_lt (by omega)]
    omega
  have hdef : Config.defaults.wellFormed = true := by decide
  have hcode' := hcode _ hdef
  unfold readyToFetch
  simp only
  split <;> rename_i h1 <;> split <;> rename_i h2 <;> split <;> rename_i h3 <;>
    refine ⟨⟨?_, ?_⟩, ?_, ?_, ?_⟩ <;> first | rfl | assumption | simpa using h2 | exact hcode _ h1

/-- A state that can step already is left as it is. -/
theorem readyToFetch_of_running {s : State} (hr : Running s) (h : inCode s.params s.pc.toNat = true) :
    readyToFetch s = s := by
  simp [readyToFetch, hr.params, hr.notHalted, h]

/-! ## Runs -/

theorem run_zero (s : State) : Host.Core.run Sys2Proof.core 0 s = .next s := rfl

/-- `k + 1` steps of a machine, the first one taken. -/
theorem run_succ (M : Host.Core) (k : Nat) (s : M.State) :
    M.run (k + 1) s = (match M.step s with
      | .next s' => M.run k s'
      | .fault r => .fault r
      | .refused r => .refused r) := rfl

theorem run_of_step {s t : State} (h : step s = .next t) (k : Nat) :
    Host.Core.run Sys2Proof.core (k + 1) s = Host.Core.run Sys2Proof.core k t := by
  refine (run_succ Sys2Proof.core k s).trans ?_
  have h' : Sys2Proof.core.step s = .next t := h
  rw [h']

/-- A run of `k + 1` steps that answers a next state began with a step that did. -/
theorem step_of_run {k : Nat} {s u : State} (h : Host.Core.run Sys2Proof.core (k + 1) s = .next u) :
    ∃ t, step s = .next t ∧ Host.Core.run Sys2Proof.core k t = .next u := by
  have h' := (run_succ Sys2Proof.core k s).symm.trans h
  have hs : Sys2Proof.core.step s = step s := rfl
  rw [hs] at h'
  cases hd : step s with
  | next t => rw [hd] at h'; exact ⟨t, rfl, h'⟩
  | fault r => rw [hd] at h'; cases h'
  | refused r => rw [hd] at h'; cases h'

end Sys2Proof.Machine
end

