-- ==== Sys2Proof/Laws/Words.lean ====
section
/-!
SUPPORT. The word arithmetic of the model read as integers modulo 2^32 (R8, R9, R51), and bits of slices.
-/

namespace Sys2Proof.Machine

theorem modWord_add (x y : Int) : modWord (x + y) = modWord x + modWord y := BitVec.ofInt_add ..

theorem modWord_toNat (v : Word) : modWord (v.toNat : Int) = v := by
  rw [modWord, BitVec.ofInt_natCast, BitVec.ofNat_toNat, BitVec.setWidth_eq]

theorem modWord_sub (x y : Int) : modWord (x - y) = modWord x - modWord y := by
  rw [eq_comm, sub_eq_iff_eq_add, ← modWord_add]
  congr 1
  omega

/-- Sign extension is the signed value modulo 2^32. -/
theorem modWord_toInt {n : Nat} (v : BitVec n) : modWord v.toInt = sext v := rfl

theorem signed_eq_toInt (v : Word) : signed v = v.toInt := by
  rw [signed, BitVec.toInt_eq_toNat_cond]
  split <;> split <;> omega

theorem condLt_iff_signed (a b : Word) : condLt a b = true ↔ signed a < signed b := by
  rw [condLt, BitVec.slt_iff_toInt_lt, signed_eq_toInt, signed_eq_toInt]

/-- Clearing bit 0. -/
theorem toNat_clear_bit0 (x : Word) : (x &&& 0xFFFFFFFE#32).toNat = x.toNat / 2 * 2 := by
  have h : x &&& 0xFFFFFFFE#32 = (x >>> 1) <<< 1 := by
    ext i hi
    rcases i with _ | i
    · simp [BitVec.getElem_shiftLeft]
    · have hb : ∀ j : Fin 31, (0xFFFFFFFE#32).getLsbD (j.val + 1) = true := by decide
      have : (0xFFFFFFFE#32)[i + 1] = true := hb ⟨i, by omega⟩
      simp only [BitVec.getElem_and, BitVec.getElem_shiftLeft]
      simp [this, Nat.add_comm, BitVec.getLsbD_eq_getElem hi]
  rw [h, BitVec.toNat_shiftLeft, BitVec.toNat_ushiftRight, Nat.shiftLeft_eq, Nat.shiftRight_eq_div_pow]
  have := x.isLt
  omega

/-- `& 0xFF` before a byte is made of a number changes nothing. -/
theorem ofNat_and_0xFF (n : Nat) : BitVec.ofNat 8 (n &&& 0xFF) = BitVec.ofNat 8 n := by
  apply BitVec.eq_of_toNat_eq
  rw [BitVec.toNat_ofNat, BitVec.toNat_ofNat, show (0xFF : Nat) = 2 ^ 8 - 1 from rfl,
    Nat.and_two_pow_sub_one_eq_mod]
  omega

/-- Bit `k` of a slice. -/
theorem getLsbD_slice {n : Nat} (w : BitVec n) {hi lo k : Nat} (h : k < hi - lo + 1) :
    (w.extractLsb hi lo).getLsbD k = w.getLsbD (lo + k) := by
  simp [BitVec.extractLsb, h]

/-- Bit `k` of a sign-extended field. -/
theorem getLsbD_sext {n : Nat} (v : BitVec n) {k : Nat} (hk : k < 32) :
    (sext v).getLsbD k = if k < n - 1 then v.getLsbD k else v.getLsbD (n - 1) := by
  rw [sext, BitVec.getLsbD_signExtend]
  simp only [hk, decide_true, Bool.true_and, BitVec.msb_eq_getLsbD_last]
  by_cases h : k < n - 1
  · rw [if_pos (by omega), if_pos h]
  · rw [if_neg h]
    by_cases h2 : k < n
    · rw [if_pos h2]
      congr 1
      omega
    · rw [if_neg h2]

end Sys2Proof.Machine
end

