-- ==== Sys2Proof/Tests/Slice0.lean ====
section
/-!
SUPPORT. The model's own tests. Expected values come from spec/95_test_vectors.md (the section is named) or are
worked out by hand from the rule named; and, in the second half, a concrete witness for the hypotheses of every
statement of Certificates/Slice0/Obligations.lean.
-/

namespace Sys2Proof.Tests

open Sys2Proof.Machine

/-! ## Small states -/

/-- A running core at `pc`, with these registers and these memory words, all else as reset leaves it. -/
def startAt (pc : Word) (regs : List (RegIx × Word)) (words : List (Word × Word)) : State :=
  words.foldl (fun s x => writeWord s x.1 x.2)
    (regs.foldl (fun s x => writeReg s x.1 x.2) { State.reset with pc := pc })

/-- The next state, if there is one. -/
def nextOf : Host.Outcome State Fault Refusal → Option State
  | .next t => some t
  | .fault _ => none
  | .refused _ => none

/-- Register `r` and the pc after `i`. -/
def regAndPc (i : Instr) (r : RegIx) (s : State) : Option (Word × Word) :=
  (nextOf (exec i s)).map fun t => (readReg t r, t.pc)

/-- The memory list and the pc after `i`. -/
def memAndPc (i : Instr) (s : State) : Option (Memory × Word) :=
  (nextOf (exec i s)).map fun t => (t.mem, t.pc)

/-- Stop cause, pc and instret after one step. -/
def stopAfterStep (s : State) : Option (StopCause × Word × Nat) :=
  (nextOf (step s)).map fun t => (t.stopCause, t.pc, t.instret)

/-! ## WellFormed refuses ill-formed terms -/

theorem test_beq_odd_offset_refused : (Instr.beq 1#5 2#5 1#13).wellFormed = false := by decide
theorem test_bne_odd_offset_refused : (Instr.bne 1#5 2#5 0x1FFF#13).wellFormed = false := by decide
theorem test_blt_odd_offset_refused : (Instr.blt 1#5 2#5 4095#13).wellFormed = false := by decide
theorem test_blt_even_offset_accepted : (Instr.blt 1#5 2#5 4094#13).wellFormed = true := by decide

theorem test_default_params_accepted : Config.defaults.wellFormed = true := by decide
theorem test_params_code_base_unaligned :
    { Config.defaults with codeBase := 2, codeSize := 0x100, stackBase := 0x102 }.wellFormed = false := by decide
theorem test_params_stack_base_unaligned :
    { Config.defaults with stackBase := 0x102 }.wellFormed = false := by decide
theorem test_params_data_base_unaligned :
    { Config.defaults with dataBase := 0x10001 }.wellFormed = false := by decide
theorem test_params_code_size_unaligned :
    { Config.defaults with codeSize := 0xFE, stackBase := 0xFE }.wellFormed = false := by decide
theorem test_params_stack_size_unaligned :
    { Config.defaults with stackSize := 0x82 }.wellFormed = false := by decide
theorem test_params_data_size_unaligned :
    { Config.defaults with dataSize := 0x7D }.wellFormed = false := by decide
theorem test_params_empty_code :
    { Config.defaults with codeSize := 0, stackBase := 0 }.wellFormed = false := by decide
theorem test_params_empty_stack : { Config.defaults with stackSize := 0 }.wellFormed = false := by decide
theorem test_params_empty_data : { Config.defaults with dataSize := 0 }.wellFormed = false := by decide
theorem test_params_stack_not_adjacent :
    { Config.defaults with stackBase := 0x104 }.wellFormed = false := by decide
theorem test_params_data_not_higher : { Config.defaults with dataBase := 0x180 }.wellFormed = false := by decide
theorem test_params_data_past_the_top :
    { Config.defaults with dataBase := 0xFFFFFF84 }.wellFormed = false := by decide
theorem test_params_data_at_the_top :
    { Config.defaults with dataBase := 0xFFFFFF80 }.wellFormed = true := by decide
theorem test_params_zero_ceiling :
    { Config.defaults with maxInstructions := 0 }.wellFormed = false := by decide

/-! ## Decoding: words of 95_test_vectors.md 2.2, and what the encoder makes of the instruction -/

theorem test_decode_add : decode 0x002081B3#32 = .ok (.add 3#5 1#5 2#5) := by decide
theorem test_decode_sub : decode 0x402081B3#32 = .ok (.sub 3#5 1#5 2#5) := by decide
theorem test_decode_slt : decode 0x0020A1B3#32 = .ok (.slt 3#5 1#5 2#5) := by decide
theorem test_decode_srl : decode 0x0020D1B3#32 = .ok (.srl 3#5 1#5 2#5) := by decide
theorem test_decode_or : decode 0x0020E1B3#32 = .ok (.or 3#5 1#5 2#5) := by decide
theorem test_decode_and : decode 0x0020F1B3#32 = .ok (.and 3#5 1#5 2#5) := by decide
theorem test_decode_addi : decode 0xFFF08193#32 = .ok (.addi 3#5 1#5 0xFFF#12) := by decide
theorem test_decode_addi_min : decode 0x80000093#32 = .ok (.addi 1#5 0#5 0x800#12) := by decide
theorem test_decode_lw : decode 0x0080A183#32 = .ok (.lw 3#5 1#5 8#12) := by decide
theorem test_decode_sw : decode 0xFE20AE23#32 = .ok (.sw 2#5 1#5 0xFFC#12) := by decide
theorem test_decode_sw_max : decode 0x7E20AFA3#32 = .ok (.sw 2#5 1#5 2047#12) := by decide
theorem test_decode_beq : decode 0x00208863#32 = .ok (.beq 1#5 2#5 16#13) := by decide
theorem test_decode_bne : decode 0xFE209CE3#32 = .ok (.bne 1#5 2#5 0x1FF8#13) := by decide
theorem test_decode_blt_min : decode 0x8020C063#32 = .ok (.blt 1#5 2#5 0x1000#13) := by decide
theorem test_decode_blt_max : decode 0x7E20CFE3#32 = .ok (.blt 1#5 2#5 4094#13) := by decide
theorem test_decode_jalr : decode 0xFFE280E7#32 = .ok (.jalr 1#5 5#5 0xFFE#12) := by decide
theorem test_decode_halt_word : decode 0x00000063#32 = .ok (.beq 0#5 0#5 0#13) := by decide

/-- `add r3, r1, r2`, the fields written out bit by bit as 2.2 prints them. -/
theorem test_decode_add_bits : decode 0b00000000001000001000000110110011#32 = .ok (.add 3#5 1#5 2#5) := by decide
/-- `sw r2, -2048(r1)` bit by bit. -/
theorem test_decode_sw_bits :
    decode 0b10000000001000001010000000100011#32 = .ok (.sw 2#5 1#5 0x800#12) := by decide
/-- `beq r0, r0, -4` bit by bit. -/
theorem test_decode_beq_bits :
    decode 0b11111110000000000000111011100011#32 = .ok (.beq 0#5 0#5 0x1FFC#13) := by decide
/-- `lw r1, -4(r0)` bit by bit. -/
theorem test_decode_lw_bits :
    decode 0b11111111110000000010000010000011#32 = .ok (.lw 1#5 0#5 0xFFC#12) := by decide
/-- `addi r1, r0, 2047` bit by bit. -/
theorem test_decode_addi_bits :
    decode 0b01111111111100000000000010010011#32 = .ok (.addi 1#5 0#5 2047#12) := by decide
/-- `jalr r0, r1, 0` bit by bit. -/
theorem test_decode_jalr_bits :
    decode 0b00000000000000001000000001100111#32 = .ok (.jalr 0#5 1#5 0#12) := by decide

theorem test_encode_sub : encode (.sub 3#5 1#5 2#5) = 0x402081B3#32 := by decide
theorem test_encode_addi : encode (.addi 3#5 1#5 0xFFF#12) = 0xFFF08193#32 := by decide
theorem test_encode_sw : encode (.sw 2#5 1#5 0xFFC#12) = 0xFE20AE23#32 := by decide
theorem test_encode_bne : encode (.bne 1#5 2#5 0x1FF8#13) = 0xFE209CE3#32 := by decide
theorem test_encode_blt : encode (.blt 1#5 2#5 4094#13) = 0x7E20CFE3#32 := by decide
theorem test_encode_bytes_low_first :
    encodeBytes (.sub 3#5 1#5 2#5) = [0xB3#8, 0x81#8, 0x20#8, 0x40#8] := by decide

/-- The illegal words of 2.3: an opcode that is none of the six. -/
theorem test_unknown_opcodes :
    [0x00000000#32, 0xFFFFFFFF#32, 0x0000006F#32, 0x000000B7#32, 0x00000017#32, 0x00000073#32, 0x0000000F#32].all
      (fun w => decide (decode w = .error .unknownOpcode)) = true := by decide
/-- The illegal words of 2.3: a known opcode with no row for its `funct3` and `funct7`. -/
theorem test_unknown_functs :
    [0x4020D1B3#32, 0x020081B3#32, 0x002091B3#32, 0x00001013#32, 0x00008183#32, 0x00209023#32, 0x0020A063#32,
      0x00009067#32].all (fun w => decide (decode w = .error .unknownFunct)) = true := by decide

theorem test_truncated : decodeBytes [0x63#8, 0#8, 0#8] = .error .truncated := by decide
theorem test_decode_table_word : decodeTableWord 32 0x402081B3 = some (.sub 3#5 1#5 2#5) := by decide
theorem test_decode_table_word_illegal : decodeTableWord 32 0x6F = none := by decide

/-- The row `12345678` of 2.1. -/
theorem test_decoder_outputs_positive : decoderOutputs 0x12345678#32 =
    { opcode := 0x78#7, rd := 0xC#5, funct3 := 5#3, rs1 := 8#5, rs2 := 3#5, funct7 := 9#7, iImm := 0x123#32,
      sImm := 0x12C#32, bImm := 0x12C#32, uImm := 0x12345000#32, jImm := 0x45922#32 } := by decide
/-- The row `DEADBEEF` of 2.1. -/
theorem test_decoder_outputs_negative : decoderOutputs 0xDEADBEEF#32 =
    { opcode := 0x6F#7, rd := 0x1D#5, funct3 := 3#3, rs1 := 0x1B#5, rs2 := 0xA#5, funct7 := 0x6F#7,
      iImm := 0xFFFFFDEA#32, sImm := 0xFFFFFDFD#32, bImm := 0xFFFFFDFC#32, uImm := 0xDEADB000#32,
      jImm := 0xFFFDB5EA#32 } := by decide

/-! ## One step of each instruction: 95_test_vectors.md 2.7 to 2.11 -/

theorem test_add_wraps_to_sign :
    regAndPc (.add 3#5 1#5 2#5) 3#5 (startAt 0#32 [(1#5, 0x7FFFFFFF#32), (2#5, 1#32)] [])
      = some (0x80000000#32, 4#32) := by decide
theorem test_add_source_is_destination :
    regAndPc (.add 1#5 1#5 1#5) 1#5 (startAt 0#32 [(1#5, 0x80000000#32)] []) = some (0#32, 4#32) := by decide
theorem test_sub_borrows :
    regAndPc (.sub 3#5 1#5 2#5) 3#5 (startAt 0#32 [(2#5, 1#32)] []) = some (0xFFFFFFFF#32, 4#32) := by decide
theorem test_sub_operand_order :
    regAndPc (.sub 3#5 1#5 2#5) 3#5 (startAt 0#32 [(1#5, 0x80000000#32), (2#5, 1#32)] [])
      = some (0x7FFFFFFF#32, 4#32) := by decide
theorem test_slt_signed :
    regAndPc (.slt 3#5 1#5 2#5) 3#5 (startAt 0#32 [(1#5, 0x80000000#32), (2#5, 0x7FFFFFFF#32)] [])
      = some (1#32, 4#32) := by decide
theorem test_slt_not_less :
    regAndPc (.slt 3#5 1#5 2#5) 3#5 (startAt 0#32 [(1#5, 1#32), (2#5, 0xFFFFFFFF#32), (3#5, 9#32)] [])
      = some (0#32, 4#32) := by decide
theorem test_srl_amount_low_five_bits :
    regAndPc (.srl 3#5 1#5 2#5) 3#5 (startAt 0#32 [(1#5, 0xF0000000#32), (2#5, 0xFFFFFFE4#32)] [])
      = some (0x0F000000#32, 4#32) := by decide
theorem test_srl_by_32 :
    regAndPc (.srl 3#5 1#5 2#5) 3#5 (startAt 0#32 [(1#5, 0x80000000#32), (2#5, 0x20#32)] [])
      = some (0x80000000#32, 4#32) := by decide
theorem test_or :
    regAndPc (.or 3#5 1#5 2#5) 3#5 (startAt 0#32 [(1#5, 0xF0F0#32), (2#5, 0xFF0#32)] [])
      = some (0xFFF0#32, 4#32) := by decide
theorem test_and :
    regAndPc (.and 3#5 1#5 2#5) 3#5 (startAt 0#32 [(1#5, 0xF0F0#32), (2#5, 0xFF0#32)] [])
      = some (0xF0#32, 4#32) := by decide
theorem test_addi_negative :
    regAndPc (.addi 3#5 1#5 0xFFF#12) 3#5 (startAt 0#32 [(1#5, 0x80000000#32)] [])
      = some (0x7FFFFFFF#32, 4#32) := by decide
theorem test_addi_to_register_zero :
    regAndPc (.addi 0#5 0#5 5#12) 0#5 State.reset = some (0#32, 4#32) := by decide
theorem test_lw_negative_displacement :
    regAndPc (.lw 3#5 1#5 0xFFC#12) 3#5 (startAt 0#32 [(1#5, 0x104#32)] [(0x100#32, 0xCAFEF00D#32)])
      = some (0xCAFEF00D#32, 4#32) := by decide
theorem test_lw_invalid_address :
    regAndPc (.lw 3#5 1#5 0#12) 3#5 (startAt 0#32 [(1#5, 0x180#32), (3#5, 9#32)] []) = some (0#32, 4#32) := by
  decide
theorem test_sw_stores_low_byte_first :
    memAndPc (.sw 2#5 1#5 0#12) (startAt 0#32 [(1#5, 0x10000#32), (2#5, 0x1122002A#32)] [])
      = some ([(0x10000, 0x2A#8), (0x10002, 0x22#8), (0x10003, 0x11#8)], 4#32) := by decide
theorem test_sw_invalid_address :
    memAndPc (.sw 2#5 1#5 0#12) (startAt 0#32 [(1#5, 0x17E#32), (2#5, 0xFFFFFFFF#32)] [])
      = some ([], 4#32) := by decide
theorem test_beq_taken :
    regAndPc (.beq 1#5 2#5 16#13) 0#5 (startAt 0x20#32 [(1#5, 5#32), (2#5, 5#32)] []) = some (0#32, 0x30#32) := by
  decide
theorem test_beq_wraps :
    regAndPc (.beq 0#5 0#5 0x1FDC#13) 0#5 (startAt 0x20#32 [] []) = some (0#32, 0xFFFFFFFC#32) := by decide
theorem test_bne_taken :
    regAndPc (.bne 1#5 2#5 0x1FF8#13) 0#5 (startAt 0x20#32 [(1#5, 5#32), (2#5, 6#32)] [])
      = some (0#32, 0x18#32) := by decide
theorem test_bne_not_taken :
    regAndPc (.bne 1#5 2#5 0x1FF8#13) 0#5 (startAt 0x20#32 [(1#5, 5#32), (2#5, 5#32)] [])
      = some (0#32, 0x24#32) := by decide
theorem test_blt_signed :
    regAndPc (.blt 1#5 2#5 8#13) 0#5 (startAt 0x20#32 [(1#5, 0xFFFFFFFF#32), (2#5, 1#32)] [])
      = some (0#32, 0x28#32) := by decide
theorem test_blt_equal_not_taken :
    regAndPc (.blt 1#5 2#5 8#13) 0#5 (startAt 0x20#32 [(1#5, 7#32), (2#5, 7#32)] []) = some (0#32, 0x24#32) := by
  decide
theorem test_jalr_old_base :
    regAndPc (.jalr 1#5 1#5 0#12) 1#5 (startAt 8#32 [(1#5, 0x20#32)] []) = some (0xC#32, 0x20#32) := by decide
theorem test_jalr_clears_bit_zero :
    regAndPc (.jalr 1#5 5#5 0xFFE#12) 1#5 (startAt 8#32 [(5#5, 0x15#32)] []) = some (0xC#32, 0x12#32) := by decide

/-! ## The bounds check and the memory primitives: 2.5, 2.6 -/

theorem test_valid_words :
    [0x0#32, 0xFC#32, 0xFD#32, 0xFF#32, 0x100#32, 0x17C#32, 0x10000#32, 0x1007C#32].all
      (fun a => valid Config.defaults a 4) = true := by decide
theorem test_invalid_words :
    [0x17D#32, 0x17F#32, 0x180#32, 0xFFFC#32, 0xFFFF#32, 0x1007D#32, 0x10080#32, 0xFFFFFFFC#32, 0xFFFFFFFE#32].all
      (fun a => !valid Config.defaults a 4) = true := by decide
theorem test_misaligned_read :
    readWord (startAt 0#32 [] [(0x100#32, 0x11223344#32), (0x104#32, 0x55667788#32)]) 0x101#32
      = 0x88112233#32 := by decide
theorem test_spanning_write :
    (writeWord State.reset 0xFE#32 0xAABBCCDD#32).mem
      = [(0xFE, 0xDD#8), (0xFF, 0xCC#8), (0x100, 0xBB#8), (0x101, 0xAA#8)] := by decide
theorem test_write_of_zero_unlists :
    (writeWord (writeWord State.reset 0x100#32 7#32) 0x100#32 0#32).mem = [] := by decide

/-! ## Steps and stops: 2.3, 2.12 -/

theorem test_empty_memory_is_illegal :
    stopAfterStep State.reset = some (.illegalInstruction, 0#32, 0) := by decide
theorem test_halt_word_stops :
    stopAfterStep (State.reset.withFetchWord 32 0x63) = some (.virtualHalt, 0#32, 1) := by decide
theorem test_other_self_loop_runs_on :
    stopAfterStep (State.reset.withFetchWord 32 0x00108063) = some (.none, 0#32, 1) := by decide
theorem test_ceiling_stops :
    stopAfterStep { (State.reset.withFetchWord 32 0x00100093) with instret := 999, cycle := 999 }
      = some (.instructionCeiling, 4#32, 1000) := by decide
theorem test_halt_word_before_ceiling :
    stopAfterStep { (State.reset.withFetchWord 32 0x63) with instret := 999, cycle := 999 }
      = some (.virtualHalt, 0#32, 1000) := by decide
theorem test_stack_not_executable :
    stopAfterStep (startAt 0x100#32 [] [(0x100#32, 0x00000013#32)]) = some (.pcOutOfCode, 0x100#32, 0) := by decide
theorem test_step_runs_placed_word :
    (nextOf (step (State.reset.withFetchWord 32 0x7FF00093))).map (fun t => (readReg t 1#5, t.pc, t.instret, t.cycle))
      = some (0x7FF#32, 4#32, 1, 1) := by decide
theorem test_placing_moves_pc_into_code :
    ((startAt 0x100#32 [] []).withFetchWord 32 0x63).pc = 0#32 := by decide
theorem test_cause_codes :
    [StopCause.none, .pcOutOfCode, .illegalInstruction, .virtualHalt, .instructionCeiling].map StopCause.code
      = [0, 1, 2, 3, 4] := by decide

/-! ## Image, trace, dump: programs P7(b) and P1 -/

theorem test_boot_places_words_low_byte_first :
    (boot Config.defaults [0x00500093#32, 0x6F#32]).map (fun s => (s.mem, s.pc))
      = some ([(0, 0x93#8), (2, 0x50#8), (4, 0x6F#8)], 0#32) := by decide
theorem test_boot_refuses_zero_ceiling :
    boot { Config.defaults with maxInstructions := 0 } [0x63#32] = none := by decide
theorem test_trace_record_of_retirement :
    (stepRecord (State.reset.withFetchWord 32 0x00500093)).map (fun r => (r.pc, r.regs[1]?))
      = some (4#32, some 5#32) := by decide
theorem test_no_trace_record_of_illegal : stepRecord State.reset = none := by decide
/-- Four words of memory: two of code, one of stack, one of data. -/
def smallParams : Params where
  codeBase := 0
  codeSize := 8
  stackBase := 8
  stackSize := 4
  dataBase := 16
  dataSize := 4
  maxInstructions := 3

theorem test_dump_order :
    dump (writeWord (writeWord (writeWord (State.resetWith smallParams) 4#32 1#32) 8#32 2#32) 16#32 3#32)
      = [0#32, 1#32, 2#32, 3#32] := by decide

/-! ## Witnesses: states and operands that meet the hypotheses of each statement, every clause of it -/

/-- A running core at `pc` with an `add r3, r1, r2` there, words in the stack, and values in a few registers. -/
def busyAt (pc : Word) : State :=
  { startAt pc [(1#5, 0x100#32), (2#5, 0xDEADBEEF#32), (5#5, 7#32), (31#5, 0xFFFFFFFF#32)]
      [(pc, 0x002081B3#32), (0x100#32, 0x11223344#32), (0x104#32, 0x55667788#32)] with instret := 5, cycle := 5 }

theorem busy_wf : Memory.wf (busyAt 0x20#32).mem := by decide
theorem busy_running : Running (busyAt 0x20#32) := ⟨by decide, by decide⟩
theorem busy_in_code : PcInCode (busyAt 0x20#32) := by unfold PcInCode; decide
theorem busy_inv : Inv (busyAt 0x20#32) :=
  ⟨by decide, by decide, by decide, by decide, by decide, by decide, by decide, by decide⟩

/-- RegisterFileReadsAndWrites, at the ends of the index range. -/
theorem witness_registerFile : (1#5 : RegIx) ≠ 0#5 ∧ (31#5 : RegIx) ≠ 0#5 ∧ (30#5 : RegIx) ≠ 31#5 := by decide

/-- RegisterAccessFollowsTable and EveryInstructionRetires: `add r3, r1, r2` leaves register 5 alone, and two
states that agree on registers 1 and 2 may differ in register 5. -/
theorem witness_registerAccess :
    (∃ t, exec (.add 3#5 1#5 2#5) (busyAt 0x20#32) = .next t ∧ destOf (.add 3#5 1#5 2#5) ≠ some 5#5)
      ∧ (∃ t₁ t₂, exec (.add 3#5 1#5 2#5) (busyAt 0x20#32) = .next t₁
          ∧ exec (.add 3#5 1#5 2#5) (writeReg (busyAt 0x20#32) 5#5 8#32) = .next t₂
          ∧ (∀ r ∈ sourcesOf (.add 3#5 1#5 2#5),
              readReg (busyAt 0x20#32) r = readReg (writeReg (busyAt 0x20#32) 5#5 8#32) r)
          ∧ readReg (busyAt 0x20#32) 5#5 ≠ readReg (writeReg (busyAt 0x20#32) 5#5 8#32) 5#5)
      ∧ (∀ rs2 rs1 imm, Instr.add 3#5 1#5 2#5 ≠ .sw rs2 rs1 imm) := by
  refine ⟨⟨_, rfl, by decide⟩, ⟨_, _, rfl, rfl, by decide, by decide⟩, fun _ _ _ h => by cases h⟩

/-- SpanningAccessIsValid: the first and last word of each band are valid, the next one is not. -/
theorem witness_spanning : Config.defaults.wellFormed = true
    ∧ valid Config.defaults 0#32 4 = true ∧ valid Config.defaults 0xFE#32 4 = true
    ∧ valid Config.defaults 0x17C#32 4 = true ∧ valid Config.defaults 0x17D#32 4 = false
    ∧ valid Config.defaults 0xFFFF#32 4 = false ∧ valid Config.defaults 0x1007C#32 4 = true
    ∧ valid Config.defaults 0x1007D#32 4 = false := by decide

/-- ReadIsLittleEndianSum, WriteStoresLowBytes, WriteThenReadRoundTrip, WordsAreLittleEndian: canonical memory, a
valid and an invalid address, a disjoint write, the address after a valid one. -/
theorem witness_memory : Memory.wf (busyAt 0x20#32).mem
    ∧ valid (busyAt 0x20#32).params 0x100#32 4 = true ∧ valid (busyAt 0x20#32).params 0x17E#32 4 = false
    ∧ ((0x104#32 : Word).toNat + 4 ≤ (0x100#32 : Word).toNat ∨ (0x100#32 : Word).toNat + 4 ≤ (0x104#32 : Word).toNat)
    ∧ valid (busyAt 0x20#32).params (0x100#32 + 1#32) 4 = true
    ∧ valid (busyAt 0x20#32).params 0x20#32 4 = true ∧ (busyAt 0x20#32).pc = 0x20#32 := by decide

/-- MemoryOperationsKeepCanonicalForm: an image that loads, an instruction that stores. -/
theorem witness_canonical : Memory.wf (busyAt 0x20#32).mem
    ∧ (∃ t, loadImage (busyAt 0x20#32) [0x63#32] = some t)
    ∧ (∃ t, exec (.sw 2#5 1#5 0#12) (busyAt 0x20#32) = .next t) := ⟨by decide, ⟨_, rfl⟩, ⟨_, rfl⟩⟩

/-- CanonicalMemoriesThatReadAlikeAreEqual: one memory reached by two orders of writing. -/
theorem witness_canonicalMemories :
    Memory.wf (Memory.set (Memory.set [] 1 5#8) 0 9#8) ∧ Memory.wf (Memory.set (Memory.set [] 0 9#8) 1 5#8)
      ∧ ∀ a, Memory.byte (Memory.set (Memory.set [] 1 5#8) 0 9#8) a
          = Memory.byte (Memory.set (Memory.set [] 0 9#8) 1 5#8) a := ⟨by decide, by decide, fun _ => rfl⟩

/-- The result statements of the register-writing instructions: a destination that holds, and both outcomes of
`slt`, from the smallest and the largest signed value. -/
theorem witness_results : (3#5 : RegIx) ≠ 0#5
    ∧ signed (readReg (startAt 0#32 [(1#5, 0x80000000#32), (2#5, 0x7FFFFFFF#32)] []) 1#5)
        < signed (readReg (startAt 0#32 [(1#5, 0x80000000#32), (2#5, 0x7FFFFFFF#32)] []) 2#5)
    ∧ ¬ signed (readReg (busyAt 0x20#32) 1#5) < signed (readReg (busyAt 0x20#32) 1#5) := by decide

/-- LwLoadsWord and SwStoresWord: an invalid and a valid effective address. -/
theorem witness_loadStore : Memory.wf (busyAt 0x20#32).mem
    ∧ valid (busyAt 0x20#32).params (modWord ((readReg (busyAt 0x20#32) 1#5).toNat + (0x7E#12).toInt)) 4 = false
    ∧ effectiveAddress (busyAt 0x20#32) 1#5 0x7E#12 = 0x17E#32
    ∧ valid (busyAt 0x20#32).params 0x17E#32 4 = false
    ∧ effectiveAddress (busyAt 0x20#32) 1#5 0x7C#12 = 0x17C#32
    ∧ valid (busyAt 0x20#32).params 0x17C#32 4 = true := by decide

/-- StoreThenLoad, both clauses, the load through another base and displacement. -/
theorem witness_storeThenLoad : Memory.wf (busyAt 0x20#32).mem ∧ (3#5 : RegIx) ≠ 0#5
    ∧ (∃ t, exec (.sw 2#5 1#5 4#12) (busyAt 0x20#32) = .next t
        ∧ effectiveAddress t 0#5 0x104#12 = effectiveAddress (busyAt 0x20#32) 1#5 4#12
        ∧ valid (busyAt 0x20#32).params (effectiveAddress (busyAt 0x20#32) 1#5 4#12) 4 = true)
    ∧ (∃ t, exec (.sw 2#5 1#5 0x80#12) (busyAt 0x20#32) = .next t
        ∧ effectiveAddress t 0#5 0x180#12 = effectiveAddress (busyAt 0x20#32) 1#5 0x80#12
        ∧ valid (busyAt 0x20#32).params (effectiveAddress (busyAt 0x20#32) 1#5 0x80#12) 4 = false) :=
  ⟨by decide, by decide, ⟨_, rfl, by decide, by decide⟩, ⟨_, rfl, by decide, by decide⟩⟩

/-- StoredWordIsFetched: a store into the code region and then another one at the word after it; a later state at
the address of the first; and a state whose fetch overlaps its last byte only, after its first byte is overwritten. -/
theorem witness_storedWord : Memory.wf (busyAt 0x20#32).mem
    ∧ valid (busyAt 0x20#32).params (effectiveAddress (busyAt 0x20#32) 0#5 0x40#12) 4 = true
    ∧ ∃ t, exec (.sw 2#5 0#5 0x40#12) (busyAt 0x20#32) = .next t
        ∧ (∃ u : State, u = { writeWord t 0x44#32 0x63#32 with pc := 0x40#32 } ∧ u.mem ≠ t.mem
          ∧ u.params = t.params ∧ u.pc = effectiveAddress (busyAt 0x20#32) 0#5 0x40#12
          ∧ ∀ j < 4, Memory.byte u.mem ((effectiveAddress (busyAt 0x20#32) 0#5 0x40#12).toNat + j)
              = Memory.byte t.mem ((effectiveAddress (busyAt 0x20#32) 0#5 0x40#12).toNat + j))
        ∧ ∃ u : State, u = { memWrite t 0x40#32 1 0 with pc := 0x43#32 } ∧ u.mem ≠ t.mem
          ∧ u.params = t.params ∧ valid u.params u.pc 4 = true
          ∧ u.pc.toNat + 0 = (effectiveAddress (busyAt 0x20#32) 0#5 0x40#12).toNat + 3
          ∧ Memory.byte u.mem ((effectiveAddress (busyAt 0x20#32) 0#5 0x40#12).toNat + 3)
              = Memory.byte t.mem ((effectiveAddress (busyAt 0x20#32) 0#5 0x40#12).toNat + 3) :=
  ⟨by decide, by decide, _, rfl, ⟨_, rfl, by decide, rfl, by decide, by decide⟩,
    ⟨_, rfl, by decide, rfl, by decide, by decide, by decide⟩⟩

/-- The branch statements: each condition met and not met, `blt` at the sign change. -/
theorem witness_branches :
    readReg (busyAt 0x20#32) 3#5 = readReg (busyAt 0x20#32) 0#5
      ∧ ¬ readReg (busyAt 0x20#32) 1#5 = readReg (busyAt 0x20#32) 2#5
      ∧ signed (readReg (busyAt 0x20#32) 31#5) < signed (readReg (busyAt 0x20#32) 0#5)
      ∧ ¬ signed (readReg (busyAt 0x20#32) 0#5) < signed (readReg (busyAt 0x20#32) 31#5) := by decide

/-- OnlySwChangesMemory: the last byte a `sw` changes. -/
theorem witness_onlySw : Memory.wf (busyAt 0x20#32).mem
    ∧ ∃ t, exec (.sw 2#5 1#5 0#12) (busyAt 0x20#32) = .next t
      ∧ Memory.byte t.mem 0x103 ≠ Memory.byte (busyAt 0x20#32).mem 0x103 := ⟨by decide, _, rfl, by decide⟩

/-- OnlyTransfersLeaveSequence: each of the four leaves the sequence. -/
theorem witness_transfers :
    (∃ t, exec (.beq 3#5 0#5 8#13) (busyAt 0x20#32) = .next t
        ∧ t.pc ≠ modWord (((busyAt 0x20#32).pc.toNat : Int) + 4))
      ∧ (∃ t, exec (.bne 1#5 2#5 8#13) (busyAt 0x20#32) = .next t
        ∧ t.pc ≠ modWord (((busyAt 0x20#32).pc.toNat : Int) + 4))
      ∧ (∃ t, exec (.blt 31#5 0#5 8#13) (busyAt 0x20#32) = .next t
        ∧ t.pc ≠ modWord (((busyAt 0x20#32).pc.toNat : Int) + 4))
      ∧ (∃ t, exec (.jalr 1#5 0#5 0#12) (busyAt 0x20#32) = .next t
        ∧ t.pc ≠ modWord (((busyAt 0x20#32).pc.toNat : Int) + 4)) :=
  ⟨⟨_, rfl, by decide⟩, ⟨_, rfl, by decide⟩, ⟨_, rfl, by decide⟩, ⟨_, rfl, by decide⟩⟩

/-- StepRunsDecodedInstruction: a legal word at the pc; no instruction at the pc; the first pc past the code. -/
theorem witness_step :
    (Running (busyAt 0x20#32) ∧ PcInCode (busyAt 0x20#32)
        ∧ decodeBytes (bytesAtPc (busyAt 0x20#32)) = .ok (.add 3#5 1#5 2#5, []))
      ∧ (Running State.reset ∧ PcInCode State.reset
        ∧ decodeBytes (bytesAtPc State.reset) = .error .unknownOpcode)
      ∧ (Running (busyAt 0x100#32) ∧ ¬ PcInCode (busyAt 0x100#32)) := by
  refine ⟨⟨busy_running, busy_in_code, by decide⟩, ⟨⟨by decide, by decide⟩, ?_, by decide⟩,
    ⟨⟨by decide, by decide⟩, ?_⟩⟩ <;> unfold PcInCode <;> decide

/-- FetchInCodeIsAlwaysValid: the last pc inside the code, whose word spans into the stack. -/
theorem witness_fetch : (busyAt 0xFF#32).params.wellFormed = true ∧ PcInCode (busyAt 0xFF#32) := by
  refine ⟨by decide, ?_⟩
  unfold PcInCode
  decide

/-- PcOutOfCodeStops: the first pc past the code region. -/
theorem witness_pcOut : Running (busyAt 0x100#32) ∧ ¬ PcInCode (busyAt 0x100#32) := witness_step.2.2

/-- IllegalInstructionStops: a word that matches no row. -/
theorem witness_illegal : Running State.reset ∧ PcInCode State.reset
    ∧ ∀ r ∈ Config.encoding.rows, fetch State.reset &&& r.mask ≠ r.pattern :=
  ⟨witness_step.2.1.1, witness_step.2.1.2.1, by decide⟩

/-- HaltWordStops: the halt word placed where the next step fetches. -/
theorem witness_haltWord : Running (State.reset.withFetchWord 32 0x63) ∧ PcInCode (State.reset.withFetchWord 32 0x63)
    ∧ fetch (State.reset.withFetchWord 32 0x63) = 0x00000063#32 := by
  refine ⟨⟨by decide, by decide⟩, ?_, by decide⟩
  unfold PcInCode
  decide

/-- CeilingStops, both clauses where they meet: 999 and 998 of 1000 instructions retired before the step. -/
theorem witness_ceiling :
    (Running { busyAt 0x20#32 with instret := 999 } ∧ PcInCode { busyAt 0x20#32 with instret := 999 }
        ∧ fetch { busyAt 0x20#32 with instret := 999 } ≠ 0x00000063#32
        ∧ decode (fetch { busyAt 0x20#32 with instret := 999 }) = .ok (.add 3#5 1#5 2#5)
        ∧ { busyAt 0x20#32 with instret := 999 }.params.maxInstructions ≤ 999 + 1)
      ∧ (Running { busyAt 0x20#32 with instret := 998 } ∧ PcInCode { busyAt 0x20#32 with instret := 998 }
        ∧ fetch { busyAt 0x20#32 with instret := 998 } ≠ 0x00000063#32
        ∧ decode (fetch { busyAt 0x20#32 with instret := 998 }) = .ok (.add 3#5 1#5 2#5)
        ∧ 998 + 1 < { busyAt 0x20#32 with instret := 998 }.params.maxInstructions) := by
  refine ⟨⟨⟨by decide, by decide⟩, ?_, by decide, by decide, by decide⟩,
    ⟨⟨by decide, by decide⟩, ?_, by decide, by decide, by decide⟩⟩ <;> unfold PcInCode <;> decide

/-- EachStopExactlyWhen and CountersCountRetirements: a step that runs on, and one that ends in each cause. -/
theorem witness_stops :
    Running (busyAt 0x20#32) ∧ (busyAt 0x20#32).stopCause = .none
      ∧ [busyAt 0x20#32, busyAt 0x100#32, State.reset, State.reset.withFetchWord 32 0x63,
          { busyAt 0x20#32 with instret := 999 }].map (fun s => (nextOf (step s)).map State.stopCause)
        = [some .none, some .pcOutOfCode, some .illegalInstruction, some .virtualHalt,
            some .instructionCeiling] := ⟨busy_running, by decide, by decide⟩

/-- HaltedCoreTakesNoStep. -/
theorem witness_halted : (stop .virtualHalt (busyAt 0x20#32)).halted = true := by decide

/-- IllegalParametersRefused: a ceiling of 0. -/
theorem witness_illegalParameters :
    { Config.defaults with maxInstructions := 0 }.maxInstructions = 0
      ∧ (State.resetWith { Config.defaults with maxInstructions := 0 }).halted = false
      ∧ (State.resetWith { Config.defaults with maxInstructions := 0 }).params.wellFormed = false := by decide

/-- InvAtBoot: parameters and an image with which the core starts. -/
theorem witness_boot : ∃ s, boot smallParams [0x00500093#32, 0x63#32] = some s := ⟨_, rfl⟩

/-- StepKeepsInv and EveryRunEnds: a state with `Inv`, five instructions retired, that steps. -/
theorem witness_inv : Inv (busyAt 0x20#32) ∧ ∃ t, step (busyAt 0x20#32) = .next t := ⟨busy_inv, _, rfl⟩

/-- BootLoadsImage and ImageSizeLimits: the longest image that fits, and one word more. -/
theorem witness_image : smallParams.wellFormed = true
    ∧ 4 * [0x00500093#32, 0x63#32].length ≤ smallParams.codeSize
    ∧ smallParams.codeSize < 4 * [0x00500093#32, 0x00500093#32, 0x63#32].length := by decide

/-- PlacedWordIsFetchedNext. -/
theorem witness_placed : Memory.wf (busyAt 0x20#32).mem ∧ Running (busyAt 0x20#32) ∧ PcInCode (busyAt 0x20#32) :=
  ⟨busy_wf, busy_running, busy_in_code⟩

/-- TraceRecordsRetirements: a step that retires, one that stops before any, and a run of two steps. -/
theorem witness_trace :
    (∃ t, step (busyAt 0x20#32) = .next t ∧ t.instret = (busyAt 0x20#32).instret + 1)
      ∧ (∃ t, step State.reset = .next t ∧ t.stopCause = .illegalInstruction ∧ State.reset.stopCause = .none)
      ∧ (∃ t, step (busyAt 0x100#32) = .next t ∧ t.stopCause = .pcOutOfCode)
      ∧ (∃ t, Host.Core.run Sys2Proof.core 2 (busyAt 0x20#32) = .next t) :=
  ⟨⟨_, rfl, by decide⟩, ⟨_, rfl, by decide, by decide⟩, ⟨_, rfl, by decide⟩, ⟨_, rfl⟩⟩

/-- DumpListsEveryWord: the last word of each region. -/
theorem witness_dump : 63 < State.reset.params.codeSize / 4 ∧ 31 < State.reset.params.stackSize / 4
    ∧ 31 < State.reset.params.dataSize / 4 := by decide

/-- SignExtensionIsTwosComplement: both signs, at 12 bits and at the widths' ends. -/
theorem witness_sext : (0x7FF#12).getLsbD 11 = false ∧ (0x800#12).getLsbD 11 = true
    ∧ (0#1).getLsbD 0 = false ∧ (1#1).getLsbD 0 = true
    ∧ (0x7FFFFFFF#32).getLsbD 31 = false ∧ (0x80000000#32).getLsbD 31 = true := by decide

/-- OpcodeMapDecides: a word and the row it matches. -/
theorem witness_map : (Mnemonic.sub, 0xFE00707F#32, 0x40000033#32) ∈ opcodeMap
    ∧ 0x402081B3#32 &&& 0xFE00707F#32 = 0x40000033#32 := by decide

/-- DecodeOfEncode and EncodeOfDecode: the largest even offset, and a word that decodes. -/
theorem witness_encode : (Instr.blt 1#5 2#5 4094#13).wellFormed = true
    ∧ decode 0x7E20CFE3#32 = .ok (.blt 1#5 2#5 4094#13) := by decide

end Sys2Proof.Tests
end

/-! PROOFS. The statements of 00_scope.md: parameters the spec does not admit. -/

namespace Sys2Proof.Machine

/-- The ceiling constraint of R124: a ceiling of 0 is not admitted, whatever the regions are. -/
theorem wellFormed_of_zero_ceiling {p : Params} (h : p.maxInstructions = 0) : p.wellFormed = false := by
  rw [Bool.eq_false_iff]
  intro hp
  have hfacts := params_facts hp
  omega

/-- The host starts no run with parameters that are not admitted, whatever the image (log 4). -/
theorem boot_of_illegalParameters {p : Params} (h : p.wellFormed = false) (img : List Word) :
    boot p img = none := by
  simp [boot, h]

/-- Settles O39: the ceiling is one of the conjuncts of `wellFormed`, and `boot` tests it before it loads
anything, and `step` once the core is known not to be halted. -/
theorem illegalParametersRefused : Obligations.IllegalParametersRefused := by
  unfold Obligations.IllegalParametersRefused
  refine ⟨?ceiling, ?step, ?boot⟩
  case ceiling => exact fun _ hzero => wellFormed_of_zero_ceiling hzero
  case step => exact fun _ hrun hbad => step_of_illegalParameters hrun hbad
  case boot => exact fun _ img hbad => boot_of_illegalParameters hbad img

end Sys2Proof.Machine

/-! PROOFS. The statements of 10_state.md: reset, the register file, canonical memory, the counters, and the
invariant. -/

namespace Sys2Proof.Machine

/-! ## The pc stays even (R16) -/

theorem toNat_even_iff {n : Nat} (v : BitVec n) : v.toNat % 2 = 0 ↔ v.getLsbD 0 = false := by
  simp only [BitVec.getLsbD, Nat.testBit_zero, decide_eq_false_iff_not]
  omega

/-- Reduction modulo 2^32 keeps parity. -/
theorem toNat_add_even {x y : Word} (hx : x.toNat % 2 = 0) (hy : y.toNat % 2 = 0) : (x + y).toNat % 2 = 0 := by
  rw [BitVec.toNat_add]
  omega

theorem sequentialPc_even {s : State} (hs : s.pc.toNat % 2 = 0) : (sequentialPc s).toNat % 2 = 0 :=
  toNat_add_even hs rfl

/-- Sign extension keeps bit 0, which a branch offset with an encoding has clear (R54). -/
theorem branchTarget_even {s : State} (hs : s.pc.toNat % 2 = 0) {off : BitVec 13} (h : evenOffset off = true) :
    (branchTarget s off).toNat % 2 = 0 := by
  refine toNat_add_even hs ((toNat_even_iff _).2 ?_)
  rw [getLsbD_sext off (by decide)]
  exact beq_iff_eq.1 h

theorem jumpTarget_even (s : State) (rs1 : RegIx) (imm : BitVec 12) : (jumpTarget s rs1 imm).toNat % 2 = 0 := by
  rw [jumpTarget, toNat_clear_bit0]
  exact Nat.mul_mod_left _ _

theorem retireBranch_pc_even {taken : Bool} {off : BitVec 13} {s t : State} (hs : s.pc.toNat % 2 = 0)
    (hoff : evenOffset off = true) (h : retireBranch taken off s = .next t) : t.pc.toNat % 2 = 0 := by
  cases h
  cases taken with
  | true => exact branchTarget_even hs hoff
  | false => exact sequentialPc_even hs

/-- Every instruction that has an encoding keeps the pc even. -/
theorem exec_pc_even {i : Instr} {s t : State} (hi : i.wellFormed = true) (hs : s.pc.toNat % 2 = 0)
    (h : exec i s = .next t) : t.pc.toNat % 2 = 0 := by
  cases i
  case beq | bne | blt => exact retireBranch_pc_even hs hi h
  case jalr rd rs1 imm => cases h; exact jumpTarget_even s rs1 imm
  all_goals cases h; exact sequentialPc_even hs

/-! ## What an instruction keeps of the counters and of memory -/

theorem retired_of_exec {i : Instr} {s t : State} (h : exec i s = .next t) : Retired s t := by
  obtain ⟨u, hu, hret⟩ := exec_retires i s
  rw [hu] at h
  cases h
  exact hret

theorem exec_wf {i : Instr} {s t : State} (hm : Memory.wf s.mem) (h : exec i s = .next t) : Memory.wf t.mem := by
  rcases exec_mem h with hmem | ⟨rs2, rs1, imm, -, hmem⟩
  · rwa [hmem]
  · rw [hmem]
    exact writeWord_wf hm _ _

theorem exec_inRegions {i : Instr} {s t : State} (hm : ∀ c ∈ s.mem, inRegion s.params c.1 = true)
    (h : exec i s = .next t) : ∀ c ∈ t.mem, inRegion s.params c.1 = true := by
  rcases exec_mem h with hmem | ⟨rs2, rs1, imm, -, hmem⟩
  · rwa [hmem]
  · rw [hmem]
    exact writeWord_inRegions hm _ _

/-! ## The invariant, kept by every step -/

/-- A stop changes `halted` and the cause together, so they stay tied (R21). -/
theorem inv_stop {s : State} {c : StopCause} (hc : c ≠ .none) (hs : Inv s) : Inv (stop c s) where
  params := hs.params
  memCanonical := hs.memCanonical
  memInRegions := hs.memInRegions
  pcEven := hs.pcEven
  counters := hs.counters
  cause := by simp [hc]
  ceiling := hs.ceiling
  budget := by simp

theorem afterCommit_cause {w : Word} {s : State} (hs : s.stopCause = .none ↔ s.halted = false) :
    (afterCommit w s).stopCause = .none ↔ (afterCommit w s).halted = false := by
  rcases afterCommit_cases w s with ⟨-, h⟩ | ⟨-, -, h⟩ | ⟨-, -, h⟩ <;> rw [h]
  case inl | inr.inl => simp
  case inr.inr => exact hs

/-- A core still running after the two tests is under the ceiling (R143). -/
theorem afterCommit_budget {w : Word} {s : State} (hrun : (afterCommit w s).halted = false) :
    s.instret < s.params.maxInstructions := by
  rcases afterCommit_cases w s with ⟨-, h⟩ | ⟨-, -, h⟩ | ⟨-, hlt, -⟩
  case inl | inr.inl => simp [h] at hrun
  case inr.inr => exact hlt

/-- An instruction that retired, then the two tests: `instret` was under the ceiling, so it has at most reached it. -/
theorem inv_afterCommit {i : Instr} {w : Word} {s u : State} (hs : Inv s) (hrun : s.halted = false)
    (hd : decode w = .ok i) (hu : exec i s = .next u) : Inv (afterCommit w u) := by
  have hret := retired_of_exec hu
  have hbudget := hs.budget hrun
  have hcause : u.stopCause = .none ↔ u.halted = false := by rw [hret.stopCause, hret.halted]; exact hs.cause
  refine ⟨?params, ?canonical, ?regions, ?pcEven, ?counters, afterCommit_cause hcause, ?ceiling, ?budget⟩
  case budget => simpa using afterCommit_budget
  all_goals simp only [afterCommit_params, afterCommit_mem, afterCommit_pc, afterCommit_cycle,
    afterCommit_instret, hret.params]
  case params => exact hs.params
  case canonical => exact exec_wf hs.memCanonical hu
  case regions => exact exec_inRegions hs.memInRegions hu
  case pcEven => exact exec_pc_even (wellFormed_of_decode hd) hs.pcEven hu
  case counters => rw [hret.cycle, hret.instret, hs.counters]
  case ceiling => rw [hret.instret]; exact hbudget

/-- Settles O42: an early stop touches only `halted` and the cause, and a retirement keeps each clause. -/
theorem stepKeepsInv : Obligations.StepKeepsInv := by
  unfold Obligations.StepKeepsInv
  intro s t hs h
  obtain ⟨hr, ⟨-, rfl⟩ | ⟨-, -, rfl⟩ | ⟨-, i, u, hd, hu, rfl⟩⟩ := step_cases h
  · exact ⟨inv_stop (by decide) hs, rfl⟩
  · exact ⟨inv_stop (by decide) hs, rfl⟩
  · exact ⟨inv_afterCommit hs hr.notHalted hd hu, (afterCommit_params _ _).trans (retired_of_exec hu).params⟩

/-! ## The register file (R11, R12) -/

/-- Settles O2: the register file's laws, and the two shapes of retirement at destination 0. -/
theorem registerFileReadsAndWrites : Obligations.RegisterFileReadsAndWrites := by
  unfold Obligations.RegisterFileReadsAndWrites
  intro s
  refine ⟨readReg_zero s, writeReg_zero s, readReg_resetWith, fun i v hi => readReg_writeReg_same s hi v,
    fun i j v hij => readReg_writeReg_other s hij v, fun i v => by simp, ?jalr, ?lw⟩
  case jalr =>
    intro rs1 imm
    obtain ⟨t, ht, -, hregs, -, hpc, hret⟩ := retireJump_spec 0#5 (jumpTarget s rs1 imm) s
    exact ⟨t, ht, sameRegs_of_onlyReg_zero hregs, hpc, hret⟩
  case lw =>
    intro rs1 imm
    obtain ⟨t, ht, -, hregs, hmem, hpc, hret⟩ := retireReg_spec 0#5 (readWord s (effectiveAddress s rs1 imm)) s
    exact ⟨t, ht, sameRegs_of_onlyReg_zero hregs, sameMem_of_mem_eq hmem, hpc, hret⟩

/-! ## What an instruction reads and writes (R13) -/

/-- A store sees the memory and the parameters and nothing else. -/
theorem writeWord_mem_congr {s₁ s₂ : State} (hm : s₁.mem = s₂.mem) (hp : s₁.params = s₂.params) (a v : Word) :
    (writeWord s₁ a v).mem = (writeWord s₂ a v).mem := by
  cases h : valid s₂.params a 4 with
  | false => rw [writeWord_invalid h, writeWord_invalid (hp ▸ h), hm]
  | true => rw [writeWord_valid_mem h, writeWord_valid_mem (hp ▸ h), hm]

/-- The memory a record leaves depends on the memory and the parameters it is committed to. -/
theorem commit_mem_congr (e : Effects) {s₁ s₂ : State} (hm : s₁.mem = s₂.mem) (hp : s₁.params = s₂.params) :
    (commit e s₁).mem = (commit e s₂).mem := by
  cases h : e.store with
  | none => rw [commit_mem_of_no_store e s₁ h, commit_mem_of_no_store e s₂ h, hm]
  | some w => rw [commit_mem_of_store e s₁ h, commit_mem_of_store e s₂ h, writeWord_mem_congr hm hp]

/-- The value a record leaves in the register it writes depends on the record alone. -/
theorem readReg_commit_written {e : Effects} {rd : RegIx} {v : Word} (h : e.regWrite = some (rd, v)) (s : State) :
    readReg (commit e s) rd = if rd = 0#5 then 0#32 else v := by
  split
  · next hrd => rw [hrd, readReg_zero]
  · next hrd => simpa [commit, h] using readReg_writeReg_same (commitStore s e.store) hrd v

/-- Two states that agree where an instruction looks: it commits one and the same record to both, and the record
writes a register exactly where the table says (R13, R120). -/
theorem exec_eq_commit_of_agree {i : Instr} {s₁ s₂ : State} (hpc : s₁.pc = s₂.pc) (hp : s₁.params = s₂.params)
    (hm : s₁.mem = s₂.mem) (hsrc : ∀ r ∈ sourcesOf i, readReg s₁ r = readReg s₂ r) :
    ∃ e : Effects, exec i s₁ = .next (commit e s₁) ∧ exec i s₂ = .next (commit e s₂)
      ∧ e.regWrite.map Prod.fst = destOf i := by
  have hseq : sequentialPc s₁ = sequentialPc s₂ := congrArg (· + 4#32) hpc
  have hbranch : ∀ off, branchTarget s₁ off = branchTarget s₂ off := fun off => congrArg (· + sext off) hpc
  have hread : ∀ a, readWord s₁ a = readWord s₂ a := readWord_congr hm hp
  cases i <;> refine ⟨_, rfl, ?_, rfl⟩ <;> simp only [sourcesOf, List.forall_mem_cons] at hsrc
  case add | sub | slt | srl | or | and | addi =>
    simp only [exec, execAdd, execSub, execSlt, execSrl, execOr, execAnd, execAddi, retireReg, hsrc, hseq]
  case lw => simp only [exec, execLw, retireReg, effectiveAddress, hsrc, hseq, hread]
  case sw => simp only [exec, execSw, retireStore, effectiveAddress, hsrc, hseq]
  case beq | bne | blt =>
    simp only [exec, execBeq, execBne, execBlt, retireBranch, hsrc, hseq, hbranch]
  case jalr => simp only [exec, execJalr, retireJump, jumpTarget, effectiveAddress, hsrc, hseq]

/-- The frame of R13: a register that is not the destination keeps its value. -/
theorem readReg_exec_other {i : Instr} {s t : State} {r : RegIx} (h : exec i s = .next t)
    (hr : destOf i ≠ some r) : readReg t r = readReg s r := by
  obtain ⟨e, he, -, hdest⟩ := exec_eq_commit_of_agree (i := i) (s₁ := s) rfl rfl rfl fun _ _ => rfl
  rw [he] at h
  cases h
  cases hw : e.regWrite with
  | none => exact readReg_commit_of_no_write e s hw r
  | some w =>
    refine readReg_commit_other (rd := w.1) (v := w.2) hw fun hrw => hr ?_
    rw [← hdest, hw, hrw]
    rfl

/-- Settles O3: the frame, and one record committed to both states. -/
theorem registerAccessFollowsTable : Obligations.RegisterAccessFollowsTable := by
  unfold Obligations.RegisterAccessFollowsTable
  refine ⟨fun i s t r h hr => readReg_exec_other h hr, ?_⟩
  intro i s₁ s₂ t₁ t₂ hpc hp hm hsrc h₁ h₂
  obtain ⟨e, he₁, he₂, hdest⟩ := exec_eq_commit_of_agree hpc hp hm hsrc
  rw [he₁] at h₁
  rw [he₂] at h₂
  cases h₁
  cases h₂
  refine ⟨rfl, commit_mem_congr e hm hp, fun r hr => ?_⟩
  rw [← hdest] at hr
  obtain ⟨⟨rd, v⟩, hw, rfl⟩ := Option.map_eq_some_iff.1 hr
  rw [readReg_commit_written hw, readReg_commit_written hw]

/-! ## Canonical memory (log 5) -/

theorem memWrite_wf {s : State} (hm : Memory.wf s.mem) (a : Word) (n v : Nat) :
    Memory.wf (memWrite s a n v).mem := by
  cases h : valid s.params a n with
  | false => rwa [memWrite_invalid h]
  | true => rw [memWrite_valid_mem h]; exact Memory.wf_writeBytes hm _ _ _

/-- An image load that is not refused writes the image from `CODE_BASE` (R163, R164). -/
theorem eq_writeImage_of_loadImage {s t : State} {img : List Word} (h : loadImage s img = some t) :
    t = writeImage s s.params.codeBase img := by
  rw [loadImage] at h
  split at h
  · exact (Option.some.inj h).symm
  · cases h

/-- Settles O10: each operation is a sequence of byte writes, and one byte write keeps the form. -/
theorem memoryOperationsKeepCanonicalForm : Obligations.MemoryOperationsKeepCanonicalForm := by
  unfold Obligations.MemoryOperationsKeepCanonicalForm
  refine ⟨fun m a b hm => Memory.wf_set hm a b, fun s a n v hm => memWrite_wf hm a n v, ?image,
    fun i s t hm h => exec_wf hm h⟩
  case image =>
    intro s t img hm h
    rw [eq_writeImage_of_loadImage h]
    exact writeImage_wf hm _ _

/-- The entries of a canonical memory are told by its bytes: those that do not read as an unlisted address. -/
theorem Memory.mem_iff_byte {m : Memory} (hm : Memory.wf m) (c : Host.Cell) :
    c ∈ m ↔ Memory.byte m c.1 = c.2 ∧ c.2 ≠ Config.unlistedByte := by
  induction m with
  | nil => exact ⟨fun h => absurd h List.not_mem_nil, fun ⟨h, hne⟩ => absurd h.symm hne⟩
  | cons d m ih =>
    obtain ⟨hlt, hrest⟩ := List.pairwise_cons.1 hm.1
    obtain ⟨hd, hlisted⟩ := List.forall_mem_cons.1 hm.2
    rw [List.mem_cons, ih ⟨hrest, hlisted⟩, Memory.byte_cons]
    by_cases hc : d.1 = c.1
    · rw [if_pos hc, ← hc, Memory.byte_of_lt hlt]
      constructor
      · rintro (rfl | ⟨h, hne⟩)
        · exact ⟨rfl, hd⟩
        · exact absurd h.symm hne
      · rintro ⟨h, -⟩
        exact .inl (Prod.ext hc.symm h.symm)
    · have hne : c ≠ d := fun h => hc (h ▸ rfl)
      simp [hc, hne]

/-- Settles O11: memories that read alike list the same entries, each in the one rising order. -/
theorem canonicalMemoriesThatReadAlikeAreEqual : Obligations.CanonicalMemoriesThatReadAlikeAreEqual := by
  unfold Obligations.CanonicalMemoriesThatReadAlikeAreEqual
  intro m₁ m₂ h₁ h₂ hbyte
  have : Std.Irrefl (fun c d : Host.Cell => c.1 < d.1) := ⟨fun c => Nat.lt_irrefl c.1⟩
  have : Std.Antisymm (fun c d : Host.Cell => c.1 < d.1) := ⟨fun c d hcd hdc => absurd hcd hdc.asymm⟩
  refine List.Pairwise.eq_of_mem_iff h₁.1 h₂.1 fun c => ?_
  rw [Memory.mem_iff_byte h₁, Memory.mem_iff_byte h₂, hbyte]

/-! ## The counters (R18, R19) -/

/-- Settles O40: the tests after a commit touch no counter, register, byte or pc. -/
theorem countersCountRetirements : Obligations.CountersCountRetirements := by
  unfold Obligations.CountersCountRetirements
  intro s t h
  obtain ⟨-, ⟨-, rfl⟩ | ⟨-, -, rfl⟩ | ⟨-, i, u, hd, hu, rfl⟩⟩ := step_cases h
  · exact .inr ⟨rfl, rfl, rfl, .inl rfl⟩
  · exact .inr ⟨rfl, rfl, rfl, .inr rfl⟩
  · have hret := retired_of_exec hu
    exact .inl ⟨(afterCommit_instret _ _).trans hret.instret, (afterCommit_cycle _ _).trans hret.cycle,
      i, u, hd, hu, readReg_afterCommit _ _, afterCommit_mem _ _, afterCommit_pc _ _⟩

/-! ## Reset and boot (R26, R163) -/

/-- Settles O1: the reset state field by field. -/
theorem resetLeavesEverythingZero : Obligations.ResetLeavesEverythingZero := by
  unfold Obligations.ResetLeavesEverythingZero
  refine ⟨fun p => ?_, rfl⟩
  exact ⟨readReg_resetWith p, resetWith_pc p, resetWith_instret p, resetWith_cycle p, resetWith_halted p,
    resetWith_stopCause p, Memory.byte_nil, resetWith_params p⟩

/-- `CODE_BASE` is word-aligned and the ceiling at least 1 (R6, R124). -/
theorem inv_resetWith {p : Params} (hp : p.wellFormed = true) : Inv (State.resetWith p) := by
  have hfacts := params_facts hp
  refine ⟨hp, ⟨.nil, by simp⟩, by simp, ?pcEven, rfl, by simp, Nat.zero_le _, fun _ => ?budget⟩
  case pcEven =>
    rw [resetWith_pc, BitVec.toNat_ofNat]
    omega
  case budget =>
    rw [resetWith_params, resetWith_instret]
    omega

/-- Loading words into a state changes nothing but the bytes of the regions (R163). -/
theorem inv_writeImage {s : State} (hs : Inv s) (a : Nat) (img : List Word) : Inv (writeImage s a img) where
  params := by simpa using hs.params
  memCanonical := writeImage_wf hs.memCanonical a img
  memInRegions := by simpa using writeImage_inRegions hs.memInRegions a img
  pcEven := by simpa using hs.pcEven
  counters := by simpa using hs.counters
  cause := by simpa using hs.cause
  ceiling := by simpa using hs.ceiling
  budget := by simpa using hs.budget

/-- Settles O41: the image load writes only bytes, and only bytes of the regions. -/
theorem invAtBoot : Obligations.InvAtBoot := by
  unfold Obligations.InvAtBoot
  refine ⟨inv_resetWith (by decide), fun p img s h => ?_⟩
  rw [boot] at h
  split at h
  · next hp =>
    rw [eq_writeImage_of_loadImage h]
    exact inv_writeImage (inv_resetWith hp) _ _
  · cases h

end Sys2Proof.Machine

/-! PROOFS. The statements of 20_memory.md: the bounds check, the two memory primitives, and words in memory. -/

namespace Sys2Proof.Machine

/-! ## The bounds check (R30, R32, R33) -/

/-- Settles O4: the three regions as inequalities, under the test of every byte. -/
theorem boundsCheckIsByteByByte : Obligations.BoundsCheckIsByteByByte := by
  unfold Obligations.BoundsCheckIsByteByByte
  intro p a n
  simp only [valid_iff, inRegion_iff]

/-- The code and stack regions are adjacent, so the three regions make two bands (R6, R33). -/
theorem inRegion_iff_bands {p : Params} (hp : p.wellFormed = true) (x : Nat) :
    inRegion p x = true ↔ (p.codeBase ≤ x ∧ x < p.stackBase + p.stackSize)
      ∨ (p.dataBase ≤ x ∧ x < p.dataBase + p.dataSize) := by
  have hf := params_facts hp
  rw [inRegion_iff]
  omega

/-- The address just past the stack is in no region: the data region is strictly higher (R6). -/
theorem not_inRegion_stackEnd {p : Params} (hp : p.wellFormed = true) :
    ¬ inRegion p (p.stackBase + p.stackSize) = true := by
  have hf := params_facts hp
  rw [inRegion_iff_bands hp]
  omega

/-- Settles O5: the first and the last byte of a valid access are in one band, because an access with one in each
would hold the byte just past the stack. -/
theorem spanningAccessIsValid : Obligations.SpanningAccessIsValid := by
  unfold Obligations.SpanningAccessIsValid
  intro p a n hp hn
  have hf := params_facts hp
  constructor
  · intro h
    have hfirst := (inRegion_iff_bands hp _).1 (inRegion_of_valid h (le_refl _) (by omega))
    have hlast := (inRegion_iff_bands hp (a.toNat + n - 1)).1 (inRegion_of_valid h (by omega) (by omega))
    have hgap : ¬ (a.toNat ≤ p.stackBase + p.stackSize ∧ p.stackBase + p.stackSize < a.toNat + n) :=
      fun ⟨hlo, hhi⟩ => not_inRegion_stackEnd hp (inRegion_of_valid h hlo hhi)
    omega
  · intro h
    refine (valid_iff p a n).2 fun i hi => ⟨by omega, (inRegion_iff_bands hp _).2 ?_⟩
    omega

/-! ## Reading (R34) -/

theorem Memory.readBytes_eq_sum (m : Memory) (a n : Nat) :
    Memory.readBytes m a n = ∑ i ∈ Finset.range n, (Memory.byte m (a + i)).toNat * 2 ^ (8 * i) := by
  induction n generalizing a with
  | zero => rfl
  | succ n ih =>
    have htail : ∀ i, (Memory.byte m (a + (i + 1))).toNat * 2 ^ (8 * (i + 1))
        = 256 * ((Memory.byte m (a + 1 + i)).toNat * 2 ^ (8 * i)) := fun i => by
      rw [show a + (i + 1) = a + 1 + i by omega, show 8 * (i + 1) = 8 * i + 8 by omega, pow_add]
      ring
    rw [Finset.sum_range_succ', Memory.readBytes, ih, Finset.mul_sum, add_comm]
    simp only [htail, Nat.add_zero, Nat.mul_zero, pow_zero, Nat.mul_one]

/-- Byte `i` of the number a read assembles is the byte at `a + i`. -/
theorem Memory.readBytes_div_mod (m : Memory) {a n i : Nat} (hi : i < n) :
    Memory.readBytes m a n / 256 ^ i % 256 = (Memory.byte m (a + i)).toNat := by
  induction n generalizing a i with
  | zero => omega
  | succ n ih =>
    have hb := (Memory.byte m a).isLt
    rw [Memory.readBytes]
    cases i with
    | zero => rw [pow_zero, Nat.div_one, Nat.add_mul_mod_self_left, Nat.mod_eq_of_lt hb, Nat.add_zero a]
    | succ i =>
      rw [pow_succ', ← Nat.div_div_eq_div_mul, Nat.add_mul_div_left _ _ (by decide), Nat.div_eq_of_lt hb,
        Nat.zero_add, ih (by omega), show a + 1 + i = a + (i + 1) by omega]

theorem memRead_lt (s : State) (a : Word) (n : Nat) : memRead s a n < 2 ^ (8 * n) := by
  cases h : valid s.params a n with
  | false => rw [memRead_invalid h]; exact Nat.two_pow_pos _
  | true => rw [memRead_valid h]; exact Memory.readBytes_lt _ _ _

/-- A read sees the parameters and the bytes it reads, and nothing else. -/
theorem memRead_congr {s t : State} {a : Word} {n : Nat} (hp : t.params = s.params)
    (hb : ∀ i < n, Memory.byte t.mem (a.toNat + i) = Memory.byte s.mem (a.toNat + i)) :
    memRead t a n = memRead s a n := by
  have hbytes : Memory.readBytes t.mem a.toNat n = Memory.readBytes s.mem a.toNat n :=
    Memory.readBytes_congr fun x hlo hhi => by
      have := hb (x - a.toNat) (by omega)
      rwa [show a.toNat + (x - a.toNat) = x by omega] at this
  rw [memRead, memRead, hp, hbytes]

/-- Settles O6: the recursion of `readBytes` is the sum. -/
theorem readIsLittleEndianSum : Obligations.ReadIsLittleEndianSum := by
  unfold Obligations.ReadIsLittleEndianSum
  exact fun s a n => ⟨fun h => (memRead_valid h).trans (Memory.readBytes_eq_sum _ _ _), memRead_invalid,
    memRead_lt s a n⟩

/-! ## Writing (R35) -/

/-- Bytes outside a write are unchanged, whether it is valid or not. -/
theorem byte_memWrite_outside {s : State} (hm : Memory.wf s.mem) (a : Word) (n v : Nat) :
    SameMemOutside a.toNat n s (memWrite s a n v) := by
  intro x hx
  cases h : valid s.params a n with
  | false => rw [memWrite_invalid h]
  | true => rw [memWrite_valid_mem h, Memory.byte_writeBytes_outside hm hx]

theorem byte_memWrite_inside {s : State} (hm : Memory.wf s.mem) {a : Word} {n v i : Nat}
    (h : valid s.params a n = true) (hi : i < n) :
    Memory.byte (memWrite s a n v).mem (a.toNat + i) = BitVec.ofNat 8 (v >>> (8 * i)) := by
  rw [memWrite_valid_mem h, Memory.byte_writeBytes_inside hm hi]

/-- Settles O7: the bytes inside and outside a write; every other field is untouched. -/
theorem writeStoresLowBytes : Obligations.WriteStoresLowBytes := by
  unfold Obligations.WriteStoresLowBytes
  intro s a n v hm
  refine ⟨memWrite_invalid, fun h => ⟨fun i hi => ?bytes, byte_memWrite_outside hm a n v,
    readReg_memWrite s a n v, by simp⟩⟩
  case bytes => rw [byte_memWrite_inside hm h hi, ofNat_and_0xFF]

/-! ## Read after write (R36) -/

theorem memRead_memWrite_same {s : State} (hm : Memory.wf s.mem) {a : Word} {n v : Nat}
    (h : valid s.params a n = true) : memRead (memWrite s a n v) a n = v % 2 ^ (8 * n) := by
  rw [memRead_valid (by rwa [memWrite_params]), memWrite_valid_mem h, Memory.readBytes_writeBytes hm]

/-- A write that touches none of the bytes read does not change the read. -/
theorem memRead_memWrite_disjoint {s : State} (hm : Memory.wf s.mem) {a b : Word} {n m : Nat}
    (hab : b.toNat + m ≤ a.toNat ∨ a.toNat + n ≤ b.toNat) (x : Nat) :
    memRead (memWrite s b m x) a n = memRead s a n :=
  memRead_congr (memWrite_params ..) fun _ _ => byte_memWrite_outside hm b m x _ (by omega)

/-- Settles O8: the round trip, then a disjoint write; an invalid write leaves the state itself. -/
theorem writeThenReadRoundTrip : Obligations.WriteThenReadRoundTrip := by
  unfold Obligations.WriteThenReadRoundTrip
  intro s a n v hm
  refine ⟨fun h => ⟨memRead_memWrite_same hm h, fun b m x hab => ?disjoint⟩, fun h => ?invalid⟩
  case disjoint => rw [memRead_memWrite_disjoint (memWrite_wf hm a n v) hab, memRead_memWrite_same hm h]
  case invalid =>
    rw [memWrite_invalid h]
    exact ⟨memRead_invalid h, memRead_invalid h, fun _ => rfl⟩

/-! ## Words (R37) -/

/-- Byte `i` of a stored word is its bits `8i + 7` to `8i`. -/
theorem byte_writeWord_slice {s : State} (hm : Memory.wf s.mem) {a v : Word} (h : valid s.params a 4 = true)
    {i : Nat} (hi : i < 4) : Memory.byte (writeWord s a v).mem (a.toNat + i) = v.extractLsb' (8 * i) 8 :=
  byte_writeWord_inside hm h hi

/-- Byte `i` of a stored word, as a number. -/
theorem toNat_byte_writeWord {s : State} (hm : Memory.wf s.mem) {a v : Word} (h : valid s.params a 4 = true)
    {i : Nat} (hi : i < 4) :
    (Memory.byte (writeWord s a v).mem (a.toNat + i)).toNat = v.toNat / 256 ^ i % 256 := by
  rw [byte_writeWord_inside hm h hi, BitVec.toNat_ofNat, Nat.shiftRight_eq_div_pow, pow_mul,
    show (2 : Nat) ^ 8 = 256 from rfl]

/-- A valid access does not wrap: one byte on, the address is one more (D23). -/
theorem toNat_add_one_of_valid {p : Params} {a : Word} (h : valid p a 4 = true) :
    (a + 1#32).toNat = a.toNat + 1 := by
  have hlast := ((valid_iff p a 4).1 h 3 (by decide)).1
  rw [BitVec.toNat_add, BitVec.toNat_ofNat]
  omega

/-- One byte past a stored word: its three high bytes come down, and the byte behind it enters at the top. -/
theorem readWord_writeWord_add_one {s : State} (hm : Memory.wf s.mem) {a v : Word}
    (h : valid s.params a 4 = true) (h1 : valid s.params (a + 1#32) 4 = true) :
    (readWord (writeWord s a v) (a + 1#32)).toNat
      = v.toNat / 2 ^ 8 + (Memory.byte s.mem (a.toNat + 4)).toNat * 2 ^ 24 := by
  have hv := v.isLt
  rw [readWord_toNat (by rwa [writeWord_params]), toNat_add_one_of_valid h]
  simp only [Nat.add_assoc, Nat.reduceAdd]
  rw [toNat_byte_writeWord hm h (i := 1) (by decide), toNat_byte_writeWord hm h (i := 2) (by decide),
    toNat_byte_writeWord hm h (i := 3) (by decide), byte_writeWord_outside hm a v (.inr (le_refl _))]
  omega

/-- Settles O9: the four slices of a stored word, the read as a sum, and the read one byte on. -/
theorem wordsAreLittleEndian : Obligations.WordsAreLittleEndian := by
  unfold Obligations.WordsAreLittleEndian
  intro s a v hm h
  refine ⟨⟨?_, ?_, ?_, ?_⟩, readWord_toNat h, fun hpc => hpc ▸ rfl, readWord_writeWord_add_one hm h⟩
  · exact byte_writeWord_slice hm h (i := 0) (by decide)
  · exact byte_writeWord_slice hm h (i := 1) (by decide)
  · exact byte_writeWord_slice hm h (i := 2) (by decide)
  · exact byte_writeWord_slice hm h (i := 3) (by decide)

/-! ## A store seen by a later fetch (R43) -/

/-- What a `sw` leaves of memory and of the parameters. -/
theorem exec_sw_mem_params {rs2 rs1 : RegIx} {imm : BitVec 12} {s t : State}
    (h : exec (.sw rs2 rs1 imm) s = .next t) :
    t.mem = (writeWord s (effectiveAddress s rs1 imm) (readReg s rs2)).mem ∧ t.params = s.params := by
  obtain ⟨u, hu, -, hmem, -, hret⟩ := retireStore_spec (effectiveAddress s rs1 imm) (readReg s rs2) s
  cases h.symm.trans hu
  exact ⟨hmem, hret.params⟩

/-- Byte `i` of a valid word read is the byte at `a + i`. -/
theorem readWord_div_mod {s : State} {a : Word} (h : valid s.params a 4 = true) {i : Nat} (hi : i < 4) :
    (readWord s a).toNat / 256 ^ i % 256 = (Memory.byte s.mem (a.toNat + i)).toNat := by
  rw [readWord, BitVec.toNat_ofNat, Nat.mod_eq_of_lt (memRead_lt s a 4), memRead_valid h,
    Memory.readBytes_div_mod _ hi]

/-- A word stored at `a` is read there in every state in which its four bytes stand. -/
theorem readWord_of_bytes_stand {s u : State} (hm : Memory.wf s.mem) {a v : Word}
    (h : valid s.params a 4 = true) (hp : u.params = s.params)
    (hb : ∀ j < 4, Memory.byte u.mem (a.toNat + j) = Memory.byte (writeWord s a v).mem (a.toNat + j)) :
    readWord u a = v :=
  calc readWord u a = readWord (writeWord s a v) a :=
        congrArg (BitVec.ofNat 32) (memRead_congr (hp.trans (writeWord_params ..).symm) hb)
    _ = v := readWord_writeWord hm h

/-- Settles O23: a fetch is a word read at the pc, and a read sees the bytes that stand, whole or one by one. -/
theorem storedWordIsFetched : Obligations.StoredWordIsFetched := by
  unfold Obligations.StoredWordIsFetched
  intro rs2 rs1 imm s t hm hvalid hexec u hu
  obtain ⟨hmem, hparams⟩ := exec_sw_mem_params hexec
  rw [hmem]
  refine ⟨fun hstand hpc => ?whole, fun hpcValid i hi j hj hij hstand => ?overlap⟩
  case whole =>
    rw [fetch, hpc]
    exact readWord_of_bytes_stand hm hvalid (hu.trans hparams) hstand
  case overlap => rw [fetch, readWord_div_mod hpcValid hi, hij, hstand, toNat_byte_writeWord hm hvalid hj]

end Sys2Proof.Machine

/-! PROOFS. The statements of 30_encoding.md: the fields and immediates, the opcode map, and the two round trips. -/

namespace Sys2Proof.Machine

open Laws.EncodeHitsRow (mnemonicOf)

/-! ## Encoding, then decoding (R65) -/

/-- The word of an instruction meets the key of the instruction's own row. -/
theorem encode_hits_own_row : ∀ i : Instr, Laws.EncodeHitsRow.Statement i
  | .add .. => Laws.EncodeHitsRow.add ..
  | .sub .. => Laws.EncodeHitsRow.sub ..
  | .slt .. => Laws.EncodeHitsRow.slt ..
  | .srl .. => Laws.EncodeHitsRow.srl ..
  | .or .. => Laws.EncodeHitsRow.or ..
  | .and .. => Laws.EncodeHitsRow.and ..
  | .addi .. => Laws.EncodeHitsRow.addi ..
  | .lw .. => Laws.EncodeHitsRow.lw ..
  | .sw .. => Laws.EncodeHitsRow.sw ..
  | .beq .. => Laws.EncodeHitsRow.beq ..
  | .bne .. => Laws.EncodeHitsRow.bne ..
  | .blt .. => Laws.EncodeHitsRow.blt ..
  | .jalr .. => Laws.EncodeHitsRow.jalr ..

/-- The operands are read back from the places where the instruction's format put them (R59). -/
theorem build_encode {i : Instr} (hi : i.wellFormed = true) : (mnemonicOf i).build (encode i) = i := by
  cases i
  case add | sub | slt | srl | or | and =>
    simp only [mnemonicOf, Mnemonic.build, encode, encodeWith, fields_formatR]
  case addi | lw | jalr => simp only [mnemonicOf, Mnemonic.build, encode, encodeWith, fields_formatI]
  case sw => simp only [mnemonicOf, Mnemonic.build, encode, encodeWith, fields_formatS]
  case beq | bne | blt =>
    simp only [Instr.wellFormed] at hi
    simp only [mnemonicOf, Mnemonic.build, encode, encodeWith, fields_formatB, hi]

theorem decode_encode {i : Instr} (hi : i.wellFormed = true) : decode (encode i) = .ok i := by
  obtain ⟨r, hr, hname, hits⟩ := encode_hits_own_row i
  rw [decode_of_hits hr hits, hname, build_encode hi]

/-- Settles O54: an instruction's word meets its own row, whose fields are the operands the format holds. -/
theorem decodeOfEncode : Obligations.DecodeOfEncode := by
  unfold Obligations.DecodeOfEncode
  intro i rest hi
  rw [encodeBytes, decodeBytes_wordBytes, decode_encode hi]

/-! ## Decoding, then encoding (R65) -/

theorem formatR_of_hits {r : Row} {f7 : BitVec 7} (h7 : r.funct7 = some f7) {w : Word} (h : r.hits w = true) :
    formatR f7 (rs2Field w) (rs1Field w) r.funct3 (rdField w) r.opcode = w := by
  obtain ⟨hop, h3, hf7⟩ := (hits_iff r w).1 h
  rw [← hop, ← h3, ← hf7 f7 h7]
  exact formatR_of_fields w

theorem formatI_of_hits {r : Row} {w : Word} (h : r.hits w = true) :
    formatI (iField w) (rs1Field w) r.funct3 (rdField w) r.opcode = w := by
  obtain ⟨hop, h3, -⟩ := (hits_iff r w).1 h
  rw [← hop, ← h3]
  exact formatI_of_fields w

theorem formatS_of_hits {r : Row} {w : Word} (h : r.hits w = true) :
    formatS (sField w) (rs2Field w) (rs1Field w) r.funct3 r.opcode = w := by
  obtain ⟨hop, h3, -⟩ := (hits_iff r w).1 h
  rw [← hop, ← h3]
  exact formatS_of_fields w

theorem formatB_of_hits {r : Row} {w : Word} (h : r.hits w = true) :
    formatB (bField w) (rs2Field w) (rs1Field w) r.funct3 r.opcode = w := by
  obtain ⟨hop, h3, -⟩ := (hits_iff r w).1 h
  rw [← hop, ← h3]
  exact formatB_of_fields w

/-- What a row makes of a word that meets its key encodes to that word, whatever the table's constants are. -/
theorem encodeWith_build {t : Encoding} {r : Row} (hr : r ∈ t.rows) {w : Word} (h : r.hits w = true) :
    encodeWith t (r.mnemonic.build w) = w := by
  obtain ⟨m, op, f3, f7⟩ := r
  cases m <;> simp [Encoding.rows] at hr <;> obtain ⟨hop, h3, h7⟩ := hr <;> subst hop h3 h7
  case add | sub | slt | srl | or | and => exact (formatR_of_hits rfl h :)
  case addi | lw | jalr => exact (formatI_of_hits h :)
  case sw => exact (formatS_of_hits h :)
  case beq | bne | blt => exact (formatB_of_hits h :)

theorem encode_of_decode {w : Word} {i : Instr} (h : decode w = .ok i) : encode i = w := by
  obtain ⟨r, hr, hits, rfl⟩ := hits_of_decode h
  exact encodeWith_build hr hits

/-! ## The bits of the immediates (R52 to R56) -/

/-- The `n` bits from bit `i` of `v` are the `n` bits from bit `j` of `w`, when `v`'s listed bits say so. -/
theorem slice_of_hasBits {v w : Word} {f : Nat → Bool} (hv : HasBits v f) (i j : Nat) {n : Nat} (hin : i + n ≤ 32)
    (hf : ∀ k < n, f (i + k) = w.getLsbD (j + k)) : v.extractLsb' i n = w.extractLsb' j n := by
  apply BitVec.eq_of_getLsbD_eq
  intro k hk
  rw [BitVec.getLsbD_extractLsb', BitVec.getLsbD_extractLsb', hv _ (by omega), hf k hk]

/-- A sign-extended field has the bits `f` when the field has them and `f` does not change from the top bit on. -/
theorem hasBits_sext {n : Nat} {v : BitVec n} {f : Nat → Bool} (hn : 0 < n) (hfield : ∀ k < n, v.getLsbD k = f k)
    (hfill : ∀ k, n - 1 ≤ k → f k = f (n - 1)) : HasBits (sext v) f := by
  intro k hk
  rw [getLsbD_sext v hk]
  split
  · exact hfield k (by omega)
  · rw [hfill k (by omega)]
    exact hfield (n - 1) (by omega)

/-- The bits of I-imm (R52). -/
def iImmBit (w : Word) (k : Nat) : Bool := if k < 11 then w.getLsbD (k + 20) else w.getLsbD 31

/-- The bits of S-imm (R53). -/
def sImmBit (w : Word) (k : Nat) : Bool :=
  if k < 5 then w.getLsbD (k + 7) else if k < 11 then w.getLsbD (k + 20) else w.getLsbD 31

/-- The bits of B-imm (R54). -/
def bImmBit (w : Word) (k : Nat) : Bool :=
  if k = 0 then false else if k < 5 then w.getLsbD (k + 7) else if k < 11 then w.getLsbD (k + 20)
  else if k = 11 then w.getLsbD 7 else w.getLsbD 31

/-- The bits of J-imm (R56). -/
def jImmBit (w : Word) (k : Nat) : Bool :=
  if k = 0 then false else if k < 11 then w.getLsbD (k + 20) else if k = 11 then w.getLsbD 20
  else if k < 20 then w.getLsbD k else w.getLsbD 31

theorem getLsbD_iField (w : Word) {k : Nat} (hk : k < 12) : (iField w).getLsbD k = iImmBit w k := by
  rw [iField, getLsbD_slice w hk, iImmBit]
  split_ifs <;> congr 1 <;> omega

theorem getLsbD_sField (w : Word) {k : Nat} (hk : k < 12) : (sField w).getLsbD k = sImmBit w k := by
  unfold sField sImmBit
  rw [BitVec.getLsbD_append]
  split_ifs <;> rw [getLsbD_slice w (by omega)] <;> congr 1 <;> omega

/-- A bit of a field whose low bit is forced to 0. -/
theorem getLsbD_append_clear_succ {n : Nat} (x : BitVec n) (k : Nat) : (x ++ 0#1).getLsbD (k + 1) = x.getLsbD k := by
  rw [BitVec.getLsbD_append, if_neg (by omega), Nat.add_sub_cancel]

theorem getLsbD_append_clear_zero {n : Nat} (x : BitVec n) : (x ++ 0#1).getLsbD 0 = false := by
  rw [BitVec.getLsbD_append, if_pos Nat.one_pos]
  rfl

theorem getLsbD_bField (w : Word) {k : Nat} (hk : k < 13) : (bField w).getLsbD k = bImmBit w k := by
  unfold bField bImmBit
  cases k with
  | zero => exact getLsbD_append_clear_zero _
  | succ k =>
    rw [getLsbD_append_clear_succ, BitVec.getLsbD_append, BitVec.getLsbD_append, BitVec.getLsbD_append,
      if_neg k.succ_ne_zero]
    split_ifs <;> rw [getLsbD_slice w (by omega)] <;> congr 1 <;> omega

theorem getLsbD_jField (w : Word) {k : Nat} (hk : k < 21) : (jField w).getLsbD k = jImmBit w k := by
  unfold jField jImmBit
  cases k with
  | zero => exact getLsbD_append_clear_zero _
  | succ k =>
    rw [getLsbD_append_clear_succ, BitVec.getLsbD_append, BitVec.getLsbD_append, BitVec.getLsbD_append,
      if_neg k.succ_ne_zero]
    split_ifs <;> rw [getLsbD_slice w (by omega)] <;> congr 1 <;> omega

theorem hasBits_iImm (w : Word) : HasBits (decoderOutputs w).iImm (iImmBit w) := by
  refine hasBits_sext (by decide) (fun _ => getLsbD_iField w) fun k hk => ?_
  rw [iImmBit, if_neg (by omega)]
  rfl

theorem hasBits_sImm (w : Word) : HasBits (decoderOutputs w).sImm (sImmBit w) := by
  refine hasBits_sext (by decide) (fun _ => getLsbD_sField w) fun k hk => ?_
  rw [sImmBit, if_neg (by omega), if_neg (by omega)]
  rfl

theorem hasBits_bImm (w : Word) : HasBits (decoderOutputs w).bImm (bImmBit w) := by
  refine hasBits_sext (by decide) (fun _ => getLsbD_bField w) fun k hk => ?_
  rw [bImmBit, if_neg (by omega), if_neg (by omega), if_neg (by omega), if_neg (by omega)]
  rfl

theorem hasBits_jImm (w : Word) : HasBits (decoderOutputs w).jImm (jImmBit w) := by
  refine hasBits_sext (by decide) (fun _ => getLsbD_jField w) fun k hk => ?_
  rw [jImmBit, if_neg (by omega), if_neg (by omega), if_neg (by omega), if_neg (by omega)]
  rfl

/-- U-imm is the word with its low 12 bits cleared (R55). -/
theorem uImm_eq_mask (w : Word) : (decoderOutputs w).uImm = w &&& 0xFFFFF000#32 := by
  have hmask : ∀ k : Fin 32, (0xFFFFF000#32).getLsbD k = decide (12 ≤ k.val) := by decide
  apply BitVec.eq_of_getLsbD_eq
  intro k hk
  rw [BitVec.getLsbD_and, hmask ⟨k, hk⟩]
  refine (BitVec.getLsbD_append (x := w.extractLsb 31 12) (y := 0#12)).trans ?_
  split
  case isTrue hlow => simp [hlow]
  case isFalse hhigh =>
    rw [getLsbD_slice w (by omega), Nat.add_sub_cancel' (Nat.le_of_not_lt hhigh),
      decide_eq_true (Nat.le_of_not_lt hhigh), Bool.and_true]

/-- Settles O55: a legal word meets its row's key, so the row's format puts every bit back; and the immediates'
bits are the word's, read off the lists of R52, R53 and R54. -/
theorem encodeOfDecode : Obligations.EncodeOfDecode := by
  unfold Obligations.EncodeOfDecode
  refine ⟨fun w i h => ⟨wellFormed_of_decode h, encode_of_decode h⟩, fun w => ?fields⟩
  case fields =>
    refine ⟨formatR_of_fields w,
      slice_of_hasBits (hasBits_iImm w) 0 20 (n := 12) (by decide) ?i,
      slice_of_hasBits (hasBits_sImm w) 5 25 (n := 7) (by decide) ?sHigh,
      slice_of_hasBits (hasBits_sImm w) 0 7 (n := 5) (by decide) ?sLow,
      slice_of_hasBits (hasBits_bImm w) 12 31 (n := 1) (by decide) ?bSign,
      slice_of_hasBits (hasBits_bImm w) 5 25 (n := 6) (by decide) ?bHigh,
      slice_of_hasBits (hasBits_bImm w) 1 8 (n := 4) (by decide) ?bLow,
      slice_of_hasBits (hasBits_bImm w) 11 7 (n := 1) (by decide) ?bEleven⟩
    case i =>
      intro k hk
      unfold iImmBit
      split_ifs <;> congr 1 <;> omega
    case sHigh | sLow =>
      intro k hk
      unfold sImmBit
      split_ifs <;> congr 1 <;> omega
    case bSign | bHigh | bLow | bEleven =>
      intro k hk
      rw [bImmBit, if_neg (by omega)]
      split_ifs <;> congr 1 <;> omega

/-! ## Sign extension and the ranges of the immediates (R51) -/

/-- Sign extension keeps the two's-complement value. -/
theorem signed_sext {n : Nat} (v : BitVec n) (hn : n ≤ 32) : signed (sext v) = v.toInt := by
  rw [signed_eq_toInt, sext, BitVec.toInt_signExtend_of_le hn]

/-- Settles O50: the top bit of the field decides both the bits above it and the sign. -/
theorem signExtensionIsTwosComplement : Obligations.SignExtensionIsTwosComplement := by
  unfold Obligations.SignExtensionIsTwosComplement
  intro n v _ hn
  rw [signed_sext v hn, sext, BitVec.toNat_signExtend, BitVec.toNat_setWidth_of_le hn, BitVec.toInt_eq_msb_cond,
    BitVec.msb_eq_getLsbD_last]
  refine ⟨fun hpos => ?clear, fun hneg => ?set⟩
  case clear => simp [hpos]
  case set => simp [hneg]

/-- An even word has an even signed value. -/
theorem signed_even {v : Word} (h : v.getLsbD 0 = false) : signed v % 2 = 0 := by
  have heven := (toNat_even_iff v).2 h
  unfold signed
  split <;> omega

/-- The signed value of a sign-extended field lies in the field's own range. -/
theorem signed_sext_range {n : Nat} (v : BitVec (n + 1)) (hn : n < 32) :
    -2 ^ n ≤ signed (sext v) ∧ signed (sext v) ≤ 2 ^ n - 1 := by
  rw [signed_sext v hn]
  exact ⟨BitVec.le_toInt v, Int.le_sub_one_of_lt (BitVec.toInt_lt)⟩

/-- With bit 0 forced to 0 the largest value is one less. -/
theorem signed_sext_range_even {n : Nat} (v : BitVec (n + 2)) (hn : n < 31) (h : v.getLsbD 0 = false) :
    -2 ^ (n + 1) ≤ signed (sext v) ∧ signed (sext v) ≤ 2 ^ (n + 1) - 2 := by
  obtain ⟨hmin, hmax⟩ := signed_sext_range v (by omega)
  have heven : signed (sext v) % 2 = 0 := signed_even (by rw [getLsbD_sext v (by decide)]; simpa using h)
  rw [pow_succ] at hmin hmax ⊢
  exact ⟨hmin, by omega⟩

/-- Settles O51: the bits of the four sign-extended fields, U-imm as a mask, and the fields' ranges. -/
theorem immediatesBitByBit : Obligations.ImmediatesBitByBit := by
  unfold Obligations.ImmediatesBitByBit
  intro w
  exact ⟨hasBits_iImm w, hasBits_sImm w, hasBits_bImm w, uImm_eq_mask w, hasBits_jImm w,
    signed_sext_range (iField w) (by decide), signed_sext_range (sField w) (by decide),
    signed_sext_range_even (bField w) (by decide) (getLsbD_bField w (by decide)),
    signed_sext_range_even (jField w) (by decide) (getLsbD_jField w (by decide))⟩

/-! ## The opcode map and the illegal words (R61, R63) -/

/-- The printed masks and matches are those of the decoder's rows. -/
theorem opcodeMap_eq_rows : opcodeMap = Config.encoding.rows.map fun r => (r.mnemonic, r.mask, r.pattern) := by
  decide

/-- The decoder's answer, by the rows' keys (R61). -/
theorem decode_eq_ok_iff (w : Word) (i : Instr) :
    decode w = .ok i ↔ ∃ r ∈ Config.encoding.rows, r.hits w = true ∧ i = r.mnemonic.build w := by
  refine ⟨hits_of_decode, ?_⟩
  rintro ⟨r, hr, hits, rfl⟩
  exact decode_of_hits hr hits

/-- Settles O52: `w & mask = match` is the row's key met, and no two rows' keys are met by one word. -/
theorem opcodeMapDecides : Obligations.OpcodeMapDecides := by
  unfold Obligations.OpcodeMapDecides
  rw [opcodeMap_eq_rows]
  refine ⟨fun w i => ?decides, fun w e₁ e₂ h₁ h₂ hw₁ hw₂ => ?unique⟩
  case decides => simp only [decode_eq_ok_iff, hits_iff_mask, List.mem_map, exists_exists_and_eq_and]
  case unique =>
    obtain ⟨r₁, hr₁, rfl⟩ := List.mem_map.1 h₁
    obtain ⟨r₂, hr₂, rfl⟩ := List.mem_map.1 h₂
    rw [row_unique hr₁ hr₂ ((hits_iff_mask r₁ w).2 hw₁) ((hits_iff_mask r₂ w).2 hw₂)]

/-- A word is illegal when its fields are no row's key (R61, R63). -/
theorem decode_error_iff_fields (w : Word) :
    (∃ e, decode w = .error e) ↔ ∀ r ∈ Config.encoding.rows,
      ¬ (opcodeField w = r.opcode ∧ funct3Field w = r.funct3 ∧ ∀ f7 ∈ r.funct7, funct7Field w = f7) := by
  simp only [decode_error_iff, ← Bool.not_eq_true, hits_iff]

/-- The six opcodes of R60. -/
theorem opcode_mem_of_row :
    ∀ r ∈ Config.encoding.rows, r.opcode ∈ [0x33#7, 0x13#7, 0x03#7, 0x23#7, 0x63#7, 0x67#7] := by decide

/-- A branch's `funct3` is unlisted when it is not that of `beq`, `bne` or `blt` (R63). -/
theorem branch_funct3_unlisted (f3 : BitVec 3) :
    f3 = 2#3 ∨ f3 = 3#3 ∨ f3 = 5#3 ∨ f3 = 6#3 ∨ f3 = 7#3 ↔ ¬ f3 = 0#3 ∧ ¬ f3 = 1#3 ∧ ¬ f3 = 4#3 := by
  revert f3
  decide

/-- Settles O53: by the word's opcode; under each of the six, only that opcode's rows are left to compare. -/
theorem illegalSpace : Obligations.IllegalSpace := by
  unfold Obligations.IllegalSpace
  intro w
  rw [decode_error_iff_fields]
  generalize opcodeField w = op, funct3Field w = f3, funct7Field w = f7
  by_cases hop : op ∈ [0x33#7, 0x13#7, 0x03#7, 0x23#7, 0x63#7, 0x67#7]
  case neg => exact iff_of_true (fun r hr hkey => hop (hkey.1 ▸ opcode_mem_of_row r hr)) (.inl hop)
  case pos =>
    simp only [List.mem_cons, List.not_mem_nil, or_false] at hop
    rcases hop with rfl | rfl | rfl | rfl | rfl | rfl <;>
      simp [Encoding.rows, Config.encoding, branch_funct3_unlisted]

/-! ## The fields as numbers, and sample words -/

/-- Settles O49: the fields are slices, and format R puts them together again (R50). -/
theorem fieldsTileWord : Obligations.FieldsTileWord := by
  unfold Obligations.FieldsTileWord
  intro w
  refine ⟨opcodeField_toNat w, rdField_toNat w, funct3Field_toNat w, rs1Field_toNat w, rs2Field_toNat w,
    funct7Field_toNat w, ?tile⟩
  case tile => rw [← formatR_toNat, formatR_of_fields]

/-- Settles O56: ten closed decodings. -/
theorem sampleWordsDecode : Obligations.SampleWordsDecode := by
  unfold Obligations.SampleWordsDecode
  refine ⟨?_, ?_, ?_, ?_, ?_, ?_, ?_, ?_, ⟨.unknownFunct, ?_⟩, ⟨.unknownOpcode, ?_⟩⟩ <;> decide

end Sys2Proof.Machine

/-! PROOFS. The statements of 40_reg_reg.md: the effect, the frame and the encoding of the six register-register
instructions. -/

namespace Sys2Proof.Machine

/-! ## The register shape of retirement, as the statements speak of it (R15, R86) -/

/-- The sequential next pc as an integer modulo 2^32 (R15). -/
theorem sequentialPc_eq_modWord (s : State) : sequentialPc s = modWord ((s.pc.toNat : Int) + 4) := by
  rw [modWord_add, modWord_toNat]
  rfl

/-- What the R-group, `addi` and `lw` share: retiring with one register write is the whole effect (R86). -/
theorem writesReg_of_exec_eq {i : Instr} {rd : RegIx} {v : Word} {s : State} (h : exec i s = retireReg rd v s) :
    WritesReg i rd v s := by
  obtain ⟨t, ht, hval, hregs, hmem, hpc, hret⟩ := retireReg_spec rd v s
  exact ⟨t, h.trans ht, hval, hregs, sameMem_of_mem_eq hmem, hpc.trans (sequentialPc_eq_modWord s), hret⟩

/-! ## The words of one row (R61) -/

/-- Instructions built by different rows differ. -/
theorem mnemonicOf_build (m : Mnemonic) (w : Word) : Laws.EncodeHitsRow.mnemonicOf (m.build w) = m := by
  cases m <;> rfl

/-- The map has one row for each mnemonic. -/
theorem opcodeMap_mnemonics_nodup : (opcodeMap.map Prod.fst).Nodup := by decide

/-- A row's mask and match hold of exactly the words that decode to the row's instruction. -/
theorem encodedBy_of_mem_opcodeMap {m : Mnemonic} {mask pattern : Word} (h : (m, mask, pattern) ∈ opcodeMap) :
    EncodedBy mask pattern m.build := by
  intro w
  rw [opcodeMapDecides.1 w]
  refine ⟨fun hw => ⟨_, h, hw, rfl⟩, ?_⟩
  rintro ⟨e, he, hw, hbuild⟩
  have hname : m = e.1 := by rw [← mnemonicOf_build m w, hbuild, mnemonicOf_build]
  have hrow : (m, mask, pattern) = e := List.inj_on_of_nodup_map opcodeMap_mnemonics_nodup h he hname
  rwa [← hrow] at hw

/-! ## Sum and difference (R80, R81) -/

/-- Settles O12: word addition is addition modulo 2^32. -/
theorem addWritesSum : Obligations.AddWritesSum := by
  unfold Obligations.AddWritesSum
  refine ⟨fun rd rs1 rs2 s => ?effect, encodedBy_of_mem_opcodeMap (m := .add) (by decide)⟩
  case effect =>
    rw [modWord_add, modWord_toNat, modWord_toNat]
    exact writesReg_of_exec_eq rfl

/-- Settles O13: word subtraction is subtraction modulo 2^32. -/
theorem subWritesDifference : Obligations.SubWritesDifference := by
  unfold Obligations.SubWritesDifference
  refine ⟨fun rd rs1 rs2 s => ?effect, encodedBy_of_mem_opcodeMap (m := .sub) (by decide)⟩
  case effect =>
    rw [modWord_sub, modWord_toNat, modWord_toNat]
    exact writesReg_of_exec_eq rfl

/-! ## Signed comparison (R82) -/

/-- The word `slt` writes, by the signed readings of its operands. -/
theorem boolWord_condLt (a b : Word) : boolWord (condLt a b) = if signed a < signed b then 1#32 else 0#32 := by
  simp only [boolWord, condLt_iff_signed]

/-- Settles O14: the value written is the comparison of the signed readings. -/
theorem sltWritesSignedComparison : Obligations.SltWritesSignedComparison := by
  unfold Obligations.SltWritesSignedComparison
  refine ⟨fun rd rs1 rs2 s => ?effect, encodedBy_of_mem_opcodeMap (m := .slt) (by decide)⟩
  case effect =>
    have hwrites : WritesReg (.slt rd rs1 rs2) rd (boolWord (condLt (readReg s rs1) (readReg s rs2))) s :=
      writesReg_of_exec_eq rfl
    rw [boolWord_condLt] at hwrites
    constructor
    · intro hless
      rwa [if_pos hless] at hwrites
    · intro hnotLess
      rwa [if_neg hnotLess] at hwrites

/-! ## Logical shift (R83) -/

theorem shiftAmount_eq_mod (v : Word) : shiftAmount v = v.toNat % 32 := by
  rw [shiftAmount, toNat_slice, Nat.pow_zero, Nat.div_one]
  rfl

/-- A logical right shift by a register's low five bits is a division by a power of two. -/
theorem ushiftRight_shiftAmount (a b : Word) :
    a >>> shiftAmount b = BitVec.ofNat 32 (a.toNat / 2 ^ (b.toNat % 32)) := by
  rw [shiftAmount_eq_mod, ← Nat.shiftRight_eq_div_pow, ← BitVec.toNat_ushiftRight, BitVec.ofNat_toNat,
    BitVec.setWidth_eq]

/-- Settles O15: the amount is `x[rs2]` modulo 32, and zeros enter at bit 31. -/
theorem srlShiftsByLowFiveBits : Obligations.SrlShiftsByLowFiveBits := by
  unfold Obligations.SrlShiftsByLowFiveBits
  refine ⟨fun rd rs1 rs2 s => ?effect, encodedBy_of_mem_opcodeMap (m := .srl) (by decide)⟩
  case effect =>
    rw [← ushiftRight_shiftAmount]
    exact writesReg_of_exec_eq rfl

/-! ## Bitwise operations (R84, R85) -/

/-- Settles O16: the word written is the `or` of the operands, bit by bit. -/
theorem orWritesBitwiseOr : Obligations.OrWritesBitwiseOr := by
  unfold Obligations.OrWritesBitwiseOr
  exact ⟨fun rd rs1 rs2 s => ⟨readReg s rs1 ||| readReg s rs2, fun _ _ => BitVec.getLsbD_or,
    writesReg_of_exec_eq rfl⟩, encodedBy_of_mem_opcodeMap (m := .or) (by decide)⟩

/-- Settles O17: the word written is the `and` of the operands, bit by bit. -/
theorem andWritesBitwiseAnd : Obligations.AndWritesBitwiseAnd := by
  unfold Obligations.AndWritesBitwiseAnd
  exact ⟨fun rd rs1 rs2 s => ⟨readReg s rs1 &&& readReg s rs2, fun _ _ => BitVec.getLsbD_and,
    writesReg_of_exec_eq rfl⟩, encodedBy_of_mem_opcodeMap (m := .and) (by decide)⟩

end Sys2Proof.Machine

/-! PROOFS. The statement of 41_reg_imm.md: the effect, the frame and the encoding of `addi`. -/

namespace Sys2Proof.Machine

/-- A word plus a signed field, modulo 2^32: the sum of `addi` and of an effective address. -/
theorem modWord_toNat_add_toInt {n : Nat} (v : Word) (imm : BitVec n) :
    modWord (v.toNat + imm.toInt) = v + sext imm := by
  rw [modWord_add, modWord_toNat, modWord_toInt]

/-- Settles O18: adding the sign-extended field is adding its signed value modulo 2^32. -/
theorem addiWritesSumWithImmediate : Obligations.AddiWritesSumWithImmediate := by
  unfold Obligations.AddiWritesSumWithImmediate
  refine ⟨fun rd rs1 imm s => ?effect, encodedBy_of_mem_opcodeMap (m := .addi) (by decide)⟩
  case effect =>
    rw [modWord_toNat_add_toInt]
    exact writesReg_of_exec_eq rfl

end Sys2Proof.Machine

/-! PROOFS. The statements of 42_load_store.md: address arithmetic, `lw`, `sw`, and the two in a row. -/

namespace Sys2Proof.Machine

/-! ## Addresses and next-pc values as integers modulo 2^32 (R15, R97, R103, R110) -/

theorem effectiveAddress_eq_modWord (s : State) (rs1 : RegIx) (imm : BitVec 12) :
    effectiveAddress s rs1 imm = modWord ((readReg s rs1).toNat + imm.toInt) :=
  (modWord_toNat_add_toInt _ _).symm

theorem branchTarget_eq_modWord (s : State) (off : BitVec 13) :
    branchTarget s off = modWord ((s.pc.toNat : Int) + off.toInt) :=
  (modWord_toNat_add_toInt _ _).symm

/-- Settles O19: each is a word sum; masking with 0xFFFFFFFE clears bit 0 of the jump's. -/
theorem addressArithmeticWraps : Obligations.AddressArithmeticWraps := by
  unfold Obligations.AddressArithmeticWraps
  exact fun s rs1 imm off => ⟨sequentialPc_eq_modWord s, effectiveAddress_eq_modWord s rs1 imm,
    branchTarget_eq_modWord s off, toNat_clear_bit0 _⟩

/-! ## The load (R95) -/

/-- A `lw` writes the word at its effective address; the read itself answers 0 where that is not valid. -/
theorem lw_writesReg_readWord (rd rs1 : RegIx) (imm : BitVec 12) (s : State) :
    WritesReg (.lw rd rs1 imm) rd (readWord s (effectiveAddress s rs1 imm)) s :=
  writesReg_of_exec_eq rfl

/-- Settles O20: the load writes what the bounds-checked read answers, valid or not. -/
theorem lwLoadsWord : Obligations.LwLoadsWord := by
  unfold Obligations.LwLoadsWord
  refine ⟨fun rd rs1 imm s => ?effect, encodedBy_of_mem_opcodeMap (m := .lw) (by decide)⟩
  case effect =>
    rw [← effectiveAddress_eq_modWord]
    have hload := lw_writesReg_readWord rd rs1 imm s
    refine ⟨hload, fun hinvalid => ?_⟩
    rwa [readWord_invalid hinvalid] at hload

/-! ## The store (R96) -/

/-- Settles O21: the store is one bounds-checked word write at the effective address, and nothing else. -/
theorem swStoresWord : Obligations.SwStoresWord := by
  unfold Obligations.SwStoresWord
  refine ⟨fun rs2 rs1 imm s hm => ?effect, encodedBy_of_mem_opcodeMap (m := .sw) (by decide)⟩
  case effect =>
    obtain ⟨t, ht, hregs, hmem, hpc, hret⟩ :=
      retireStore_spec (effectiveAddress s rs1 imm) (readReg s rs2) s
    refine ⟨t, ht, hregs, hpc.trans (sequentialPc_eq_modWord s), hret, ?_⟩
    rintro ea rfl
    refine ⟨effectiveAddress_eq_modWord s rs1 imm, fun b hb => ?outside, fun hinvalid => ?invalid,
      fun hvalid i hi => ?inside⟩
    case outside => rw [hmem, byte_writeWord_outside hm _ _ hb]
    case invalid => exact sameMem_of_mem_eq (by rw [hmem, writeWord_invalid hinvalid])
    case inside => rw [hmem, byte_writeWord_inside hm hvalid hi, ofNat_and_0xFF]

/-! ## A store and then a load at the same address (R98) -/

/-- After a `sw` to a valid address, the word there is the register stored. -/
theorem readWord_exec_sw {rs2 rs1 : RegIx} {imm : BitVec 12} {s t : State} (hm : Memory.wf s.mem)
    (h : exec (.sw rs2 rs1 imm) s = .next t) (hvalid : valid s.params (effectiveAddress s rs1 imm) 4 = true) :
    readWord t (effectiveAddress s rs1 imm) = readReg s rs2 := by
  obtain ⟨hmem, hparams⟩ := exec_sw_mem_params h
  exact readWord_of_bytes_stand hm hvalid hparams fun _ _ => by rw [hmem]

/-- A `sw` to an invalid address leaves memory as it was, and a read there still answers 0. -/
theorem exec_sw_invalid {rs2 rs1 : RegIx} {imm : BitVec 12} {s t : State}
    (h : exec (.sw rs2 rs1 imm) s = .next t) (hinvalid : valid s.params (effectiveAddress s rs1 imm) 4 = false) :
    t.mem = s.mem ∧ readWord t (effectiveAddress s rs1 imm) = 0#32 := by
  obtain ⟨hmem, hparams⟩ := exec_sw_mem_params h
  exact ⟨by rw [hmem, writeWord_invalid hinvalid], readWord_invalid (by rwa [hparams])⟩

/-- Settles O22: the load writes the word at the shared address, which the store determines; register 0 takes
nothing, and reads 0 as an invalid load would. -/
theorem storeThenLoad : Obligations.StoreThenLoad := by
  unfold Obligations.StoreThenLoad
  intro rs2 rs1 rd base imm disp s t hm hsw haddr
  obtain ⟨u, hlw, hval, hregs, hmem, -, -⟩ := lw_writesReg_readWord rd base disp t
  rw [haddr] at hval
  refine ⟨u, hlw, fun hvalid hrd => ?valid, fun hinvalid => ?invalid, fun hrd r => ?zero⟩
  case valid => rw [hval hrd, readWord_exec_sw hm hsw hvalid]
  case invalid =>
    obtain ⟨hsame, hzero⟩ := exec_sw_invalid hsw hinvalid
    refine ⟨?_, fun a => by rw [hmem a, hsame]⟩
    by_cases hrd : rd = 0#5
    · rw [hrd, readReg_zero]
    · rw [hval hrd, hzero]
  case zero =>
    have hload : readReg u r = readReg t r := sameRegs_of_onlyReg_zero (hrd ▸ hregs) r
    rw [hload, readReg_exec_other hsw nofun]

end Sys2Proof.Machine

/-! PROOFS. The statements of 43_branch.md: the condition, the two next-pc values, the frame and the encoding of the
three branches. -/

namespace Sys2Proof.Machine

/-! ## The branch shape of retirement, as the statements speak of it (R103) -/

/-- What the three branches share: retiring on the Boolean of a condition is branching on that condition (R103). -/
theorem branches_of_exec_eq {i : Instr} {c : Bool} {taken : Prop} {off : BitVec 13} {s : State}
    (h : exec i s = retireBranch c off s) (hc : c = true ↔ taken) : Branches i taken off s := by
  obtain ⟨t, ht, hregs, hmem, hpc, hret⟩ := retireBranch_spec c off s
  refine ⟨t, h.trans ht, fun htaken => ?target, fun hnotTaken => ?next, hregs, sameMem_of_mem_eq hmem, hret⟩
  case target => rw [hpc, if_pos (hc.2 htaken), branchTarget_eq_modWord]
  case next => rw [hpc, if_neg (mt hc.1 hnotTaken), sequentialPc_eq_modWord]

/-! ## Equal and not equal (R100, R101) -/

theorem condEq_iff (a b : Word) : condEq a b = true ↔ a = b := beq_iff_eq

theorem condNe_iff (a b : Word) : condNe a b = true ↔ a ≠ b := bne_iff_ne

/-- Settles O24: the condition is equality of the two 32-bit patterns. -/
theorem beqBranchesIfEqual : Obligations.BeqBranchesIfEqual := by
  unfold Obligations.BeqBranchesIfEqual
  exact ⟨fun rs1 rs2 off s => branches_of_exec_eq rfl (condEq_iff _ _),
    encodedBy_of_mem_opcodeMap (m := .beq) (by decide)⟩

/-- Settles O25: the condition is that the two 32-bit patterns differ. -/
theorem bneBranchesIfNotEqual : Obligations.BneBranchesIfNotEqual := by
  unfold Obligations.BneBranchesIfNotEqual
  exact ⟨fun rs1 rs2 off s => branches_of_exec_eq rfl (condNe_iff _ _),
    encodedBy_of_mem_opcodeMap (m := .bne) (by decide)⟩

/-! ## Less than, signed (R102) -/

/-- Settles O26: the condition is the comparison of the signed readings, as for `slt`. -/
theorem bltBranchesIfSignedLess : Obligations.BltBranchesIfSignedLess := by
  unfold Obligations.BltBranchesIfSignedLess
  exact ⟨fun rs1 rs2 off s => branches_of_exec_eq rfl (condLt_iff_signed _ _),
    encodedBy_of_mem_opcodeMap (m := .blt) (by decide)⟩

end Sys2Proof.Machine

/-! PROOFS. The statements of 44_jump.md: the link, the target, the frame and the encoding of `jalr`, and which
instructions leave the sequence. -/

namespace Sys2Proof.Machine

/-! ## The indirect jump (R110) -/

/-- The jump's target as an integer modulo 2^32, bit 0 cleared. -/
theorem toNat_jumpTarget (s : State) (rs1 : RegIx) (imm : BitVec 12) :
    (jumpTarget s rs1 imm).toNat = (modWord ((readReg s rs1).toNat + imm.toInt)).toNat / 2 * 2 := by
  rw [jumpTarget, toNat_clear_bit0, effectiveAddress_eq_modWord]

/-- Settles O27: the target is computed from the state before the link is written, so `rd = rs1` needs no case. -/
theorem jalrLinksAndJumps : Obligations.JalrLinksAndJumps := by
  unfold Obligations.JalrLinksAndJumps
  refine ⟨fun rd rs1 imm s => ?effect, encodedBy_of_mem_opcodeMap (m := .jalr) (by decide)⟩
  case effect =>
    obtain ⟨t, ht, hlink, hregs, hmem, hpc, hret⟩ := retireJump_spec rd (jumpTarget s rs1 imm) s
    refine ⟨t, ht, fun hrd => ?link, ?target, hregs, sameMem_of_mem_eq hmem, hret⟩
    case link => rw [hlink hrd, sequentialPc_eq_modWord]
    case target => rw [hpc, toNat_jumpTarget]

/-! ## Leaving the sequence (R15, R111) -/

/-- A branch that leaves the sequence was taken (R103). -/
theorem taken_of_branches {i : Instr} {taken : Prop} {off : BitVec 13} {s t : State} (hi : Branches i taken off s)
    (h : exec i s = .next t) (hpc : t.pc ≠ modWord ((s.pc.toNat : Int) + 4)) : taken := by
  obtain ⟨u, hu, -, hnext, -⟩ := hi
  rw [hu] at h
  cases h
  by_contra hnotTaken
  exact hpc (hnext hnotTaken)

/-- Settles O30: a branch is taken on its own condition only, and the nine instructions that are no transfer retire
with the sequential pc. -/
theorem onlyTransfersLeaveSequence : Obligations.OnlyTransfersLeaveSequence := by
  unfold Obligations.OnlyTransfersLeaveSequence
  intro i s t h hpc
  cases i
  case beq rs1 rs2 off =>
    exact .inl ⟨rs1, rs2, off, rfl, taken_of_branches (beqBranchesIfEqual.1 rs1 rs2 off s) h hpc⟩
  case bne rs1 rs2 off =>
    exact .inr (.inl ⟨rs1, rs2, off, rfl, taken_of_branches (bneBranchesIfNotEqual.1 rs1 rs2 off s) h hpc⟩)
  case blt rs1 rs2 off =>
    exact .inr (.inr (.inl ⟨rs1, rs2, off, rfl,
      taken_of_branches (bltBranchesIfSignedLess.1 rs1 rs2 off s) h hpc⟩))
  case jalr rd rs1 imm => exact .inr (.inr (.inr ⟨rd, rs1, imm, rfl⟩))
  case add | sub | slt | srl | or | and | addi | lw | sw =>
    cases h
    exact absurd (sequentialPc_eq_modWord s) hpc

end Sys2Proof.Machine

/-! PROOFS. The statements of 45_step_cycle.md: the fetch, the step line by line, which instruction changes memory,
and that every run ends. -/

namespace Sys2Proof.Machine

/-! ## The end of a run (R116, R125) -/

/-- What a step does for the end of the run: it stops, or it uses up one of the instructions left. -/
theorem step_halts_or_counts {s t : State} (h : step s = .next t) :
    t.halted = true ∨ t.instret = s.instret + 1 := by
  rcases countersCountRetirements s t h with ⟨hretired, -⟩ | ⟨-, -, hstopped, -⟩
  · exact .inr hretired
  · exact .inl (congrArg State.halted hstopped)

/-- A bound `n` above the instructions left is a bound on the steps left: while the core runs it is at least 2, so a
step that retires leaves the smaller bound in force. -/
theorem run_halts_within {n : Nat} {s : State} (hs : Inv s) (hn : s.params.maxInstructions - s.instret < n) :
    ∃ k t, k ≤ n ∧ Host.Core.run Sys2Proof.core k s = .next t ∧ Inv t ∧ t.params = s.params
      ∧ t.halted = true := by
  induction n generalizing s with
  | zero => exact absurd hn (Nat.not_lt_zero _)
  | succ n ih =>
    cases hrun : s.halted with
    | true => exact ⟨0, s, Nat.zero_le _, run_zero s, hs, rfl, hrun⟩
    | false =>
      obtain ⟨t, hstep⟩ := step_of_running ⟨hrun, hs.params⟩
      obtain ⟨ht, hparams⟩ := stepKeepsInv s t hs hstep
      rcases step_halts_or_counts hstep with hhalt | hcount
      · exact ⟨1, t, by omega, run_of_step hstep 0, ht, hparams, hhalt⟩
      · have hbudget := hs.budget hrun
        obtain ⟨k, u, hk, hu, huInv, huParams, huHalt⟩ := ih ht (by rw [hparams, hcount]; omega)
        exact ⟨k + 1, u, by omega, (run_of_step hstep k).trans hu, huInv, huParams.trans hparams, huHalt⟩

/-- Settles O43: the bound one above the instructions left; a halted state with `Inv` has a cause and is within the
ceiling. -/
theorem everyRunEnds : Obligations.EveryRunEnds := by
  unfold Obligations.EveryRunEnds
  intro s hs
  obtain ⟨k, t, hk, hrun, ht, hparams, hhalt⟩ := run_halts_within hs (Nat.lt_succ_self _)
  exact ⟨k, t, hk, hrun, ht, hhalt, fun hnone => by simp [ht.cause.1 hnone] at hhalt, hparams ▸ ht.ceiling⟩

/-! ## Which instruction changes memory (R41, R120) -/

/-- A word store changes a byte only when its address is valid and the byte is one of the four there. -/
theorem covers_of_byte_writeWord_ne {s : State} (hm : Memory.wf s.mem) {ea v : Word} {a : Nat}
    (h : Memory.byte (writeWord s ea v).mem a ≠ Memory.byte s.mem a) :
    valid s.params ea 4 = true ∧ ea.toNat ≤ a ∧ a < ea.toNat + 4 := by
  refine ⟨?valid, ?covered⟩
  case valid =>
    by_contra hinvalid
    exact h (by rw [writeWord_invalid (Bool.eq_false_iff.2 hinvalid)])
  case covered =>
    by_contra houtside
    exact h (byte_writeWord_outside hm ea v (by omega))

/-- Settles O29: an instruction leaves memory as it was or makes the one store of `sw`, which has no destination. -/
theorem onlySwChangesMemory : Obligations.OnlySwChangesMemory := by
  unfold Obligations.OnlySwChangesMemory
  intro i s t a hm h hne
  rcases exec_mem h with hsame | ⟨rs2, rs1, imm, rfl, hstore⟩
  · exact absurd (by rw [hsame]) hne
  · rw [hstore] at hne
    obtain ⟨hvalid, hlo, hhi⟩ := covers_of_byte_writeWord_ne hm hne
    exact ⟨rs2, rs1, imm, rfl, hvalid, hlo, hhi, fun r => readReg_exec_other h nofun⟩

/-! ## The fetch (R118) -/

theorem inCode_pc_iff (s : State) : inCode s.params s.pc.toNat = true ↔ PcInCode s := inCode_iff _ _

theorem valid_pc_of_pcInCode {s : State} (hp : s.params.wellFormed = true) (hpc : PcInCode s) :
    valid s.params s.pc 4 = true :=
  valid_of_inCode hp ((inCode_pc_iff s).2 hpc)

/-- Settles O32: the fetch is a word read, and the read is valid because the stack follows the code with no gap. -/
theorem fetchInCodeIsAlwaysValid : Obligations.FetchInCodeIsAlwaysValid := by
  unfold Obligations.FetchInCodeIsAlwaysValid
  intro s hp hpc
  have hvalid := valid_pc_of_pcInCode hp hpc
  exact ⟨hvalid, readWord_toNat hvalid⟩

/-! ## The step, from the bytes at the pc (R117) -/

/-- Decoding the bytes at a pc in the code region is decoding the word fetched there, with no byte left over. -/
theorem decodeBytes_bytesAtPc {s : State} (hp : s.params.wellFormed = true) (hpc : PcInCode s) :
    decodeBytes (bytesAtPc s) = (decode (fetch s)).map fun i => (i, []) := by
  rw [fetch, readWord_valid (valid_pc_of_pcInCode hp hpc), bytesAtPc, decodeBytes]
  generalize decode _ = outcome
  cases outcome <;> rfl

theorem decode_fetch_error {s : State} (hp : s.params.wellFormed = true) (hpc : PcInCode s) {e : DecodeError}
    (h : decodeBytes (bytesAtPc s) = .error e) : decode (fetch s) = .error e := by
  rw [decodeBytes_bytesAtPc hp hpc] at h
  cases hd : decode (fetch s) with
  | error e' => rw [hd] at h; cases h; rfl
  | ok i => rw [hd] at h; cases h

theorem decode_fetch_ok {s : State} (hp : s.params.wellFormed = true) (hpc : PcInCode s) {i : Instr}
    {rest : List Byte} (h : decodeBytes (bytesAtPc s) = .ok (i, rest)) : decode (fetch s) = .ok i ∧ rest = [] := by
  rw [decodeBytes_bytesAtPc hp hpc] at h
  cases hd : decode (fetch s) with
  | error e => rw [hd] at h; cases h
  | ok j => rw [hd] at h; cases h; exact ⟨rfl, rfl⟩

/-- Settles O31: one case per line of the step at which it can end; lines 6 and 7 are `afterCommit` unfolded. -/
theorem stepRunsDecodedInstruction : Obligations.StepRunsDecodedInstruction := by
  unfold Obligations.StepRunsDecodedInstruction
  intro s hr
  refine ⟨fun hpc => ?outside, fun hpc e he => ?illegal, fun hpc i rest hi => ?legal⟩
  case outside => exact step_outside_code hr (Bool.eq_false_iff.2 (mt (inCode_pc_iff s).1 hpc))
  case illegal =>
    rw [step_in_code hr ((inCode_pc_iff s).2 hpc)]
    exact runWord_illegal (decode_fetch_error hr.params hpc he) s
  case legal =>
    obtain ⟨hd, hrest⟩ := decode_fetch_ok hr.params hpc hi
    obtain ⟨t, ht, hret⟩ := exec_retires i s
    refine ⟨wellFormed_of_decode hd, hrest, t, ht, hret, ?_⟩
    rw [step_in_code hr ((inCode_pc_iff s).2 hpc), runWord_legal hd ht]
    rfl

end Sys2Proof.Machine

/-! PROOFS. The statements of 60_exceptions.md: every instruction retires, and the four stops. -/

namespace Sys2Proof.Machine

/-! ## Every instruction retires (R150, R155) -/

/-- Settles O28: the register frame is the table's, and only the store of `sw` reaches memory. -/
theorem everyInstructionRetires : Obligations.EveryInstructionRetires := by
  unfold Obligations.EveryInstructionRetires
  intro i s
  obtain ⟨t, ht, hret⟩ := exec_retires i s
  refine ⟨t, ht, hret, fun r hr => readReg_exec_other ht hr, fun hnotSw => ?memory⟩
  case memory =>
    rcases exec_mem ht with hsame | ⟨rs2, rs1, imm, hsw, -⟩
    · exact sameMem_of_mem_eq hsame
    · exact absurd hsw (hnotSw rs2 rs1 imm)

/-! ## Where a step of a running core ends (R117), by the pc and the word fetched -/

theorem step_of_pcOutOfCode {s : State} (hr : Running s) (hpc : ¬ PcInCode s) :
    step s = .next (stop .pcOutOfCode s) :=
  step_outside_code hr (Bool.eq_false_iff.2 (mt (inCode_pc_iff s).1 hpc))

theorem step_of_illegal {s : State} {e : DecodeError} (hr : Running s) (hpc : PcInCode s)
    (he : decode (fetch s) = .error e) : step s = .next (stop .illegalInstruction s) :=
  (step_in_code hr ((inCode_pc_iff s).2 hpc)).trans (runWord_illegal he s)

theorem step_of_legal {s t : State} {i : Instr} (hr : Running s) (hpc : PcInCode s)
    (hd : decode (fetch s) = .ok i) (ht : exec i s = .next t) : step s = .next (afterCommit (fetch s) t) :=
  (step_in_code hr ((inCode_pc_iff s).2 hpc)).trans (runWord_legal hd ht)

theorem afterCommit_of_haltWord {w : Word} (hw : w = Config.haltWord) (s : State) :
    afterCommit w s = stop .virtualHalt s := if_pos hw

theorem afterCommit_of_ceiling {w : Word} {s : State} (hw : w ≠ Config.haltWord)
    (h : s.params.maxInstructions ≤ s.instret) : afterCommit w s = stop .instructionCeiling s :=
  (if_neg hw).trans (if_pos h)

theorem afterCommit_of_budget {w : Word} {s : State} (hw : w ≠ Config.haltWord)
    (h : s.instret < s.params.maxInstructions) : afterCommit w s = s :=
  (if_neg hw).trans (if_neg (Nat.not_le.2 h))

/-! ## The record of a step, by the counter (R166) -/

theorem stepRecord_of_stop {s : State} {c : StopCause} (h : step s = .next (stop c s)) : stepRecord s = none := by
  simp [stepRecord, h]

theorem stepRecord_of_retirement {s t : State} (h : step s = .next t) (hcount : t.instret = s.instret + 1) :
    stepRecord s = some (traceRecord t) := by
  simp [stepRecord, h, hcount]

/-! ## The two stops before an instruction retires (R140, R141) -/

/-- Settles O33: the region test comes before the fetch. -/
theorem pcOutOfCodeStops : Obligations.PcOutOfCodeStops := by
  unfold Obligations.PcOutOfCodeStops
  intro s hr hpc
  have hstep := step_of_pcOutOfCode hr hpc
  exact ⟨hstep, stepRecord_of_stop hstep⟩

/-- Settles O34: a word that matches no row's mask meets no row's key, so it does not decode. -/
theorem illegalInstructionStops : Obligations.IllegalInstructionStops := by
  unfold Obligations.IllegalInstructionStops
  intro s hr hpc hnoRow
  obtain ⟨e, he⟩ : ∃ e, decode (fetch s) = .error e :=
    (decode_error_iff _).2 fun r hrow => Bool.eq_false_iff.2 (mt (hits_iff_mask r _).1 (hnoRow r hrow))
  have hstep := step_of_illegal hr hpc he
  exact ⟨hstep, stepRecord_of_stop hstep⟩

/-! ## The halt word (R142) -/

theorem decode_haltWord : decode Config.haltWord = .ok (.beq 0#5 0#5 0#13) := by decide

/-- The halt word's instruction is taken whatever the registers hold, and its target is itself. -/
theorem exec_beq_self (s : State) :
    ∃ t, exec (.beq 0#5 0#5 0#13) s = .next t ∧ t.pc = s.pc ∧ SameRegs s t ∧ SameMem s t ∧ Retired s t := by
  obtain ⟨t, ht, htaken, -, hregs, hmem, hret⟩ := beqBranchesIfEqual.1 0#5 0#5 0#13 s
  have hpc : t.pc = s.pc := by simpa [modWord_toNat] using htaken rfl
  exact ⟨t, ht, hpc, hregs, hmem, hret⟩

/-- Settles O35: the halt-word test comes before the ceiling test, so `instret` plays no part. -/
theorem haltWordStops : Obligations.HaltWordStops := by
  unfold Obligations.HaltWordStops
  intro s hr hpc hw
  obtain ⟨t, ht, htpc, hregs, hmem, hret⟩ := exec_beq_self s
  have hd : decode (fetch s) = .ok (.beq 0#5 0#5 0#13) := hw ▸ decode_haltWord
  have hstep : step s = .next (stop .virtualHalt t) := by
    rw [step_of_legal hr hpc hd ht, afterCommit_of_haltWord hw]
  exact ⟨stop .virtualHalt t, hstep, rfl, rfl, htpc, hret.instret, hret.cycle, hregs, hmem, hret.params,
    stepRecord_of_retirement hstep hret.instret⟩

/-! ## The instruction ceiling (R143) -/

/-- Settles O36: the ceiling test reads the `instret` the instruction left, one more than before. -/
theorem ceilingStops : Obligations.CeilingStops := by
  unfold Obligations.CeilingStops
  intro s i hr hpc hw hd
  obtain ⟨t, ht, hret⟩ := exec_retires i s
  have hstep := step_of_legal hr hpc hd ht
  rw [← hret.instret, ← hret.params]
  refine ⟨t, ht, fun hceiling => ?reached, fun hbudget => ⟨?runsOn, hret.halted.trans hr.notHalted⟩⟩
  case reached => rw [hstep, afterCommit_of_ceiling hw hceiling]; rfl
  case runsOn => rw [hstep, afterCommit_of_budget hw hbudget]

/-! ## The tests in their order (R146) -/

/-- Settles O37: one case for each end of a step, in which the cause is known and the other causes' conditions fail;
an illegal word is not the halt word because the halt word decodes. -/
theorem eachStopExactlyWhen : Obligations.EachStopExactlyWhen := by
  unfold Obligations.EachStopExactlyWhen
  intro s t hr hnone h
  have hhalt : 0x00000063#32 = Config.haltWord := rfl
  rw [hhalt, ← inCode_pc_iff]
  obtain ⟨-, ⟨hpc, rfl⟩ | ⟨hpc, ⟨e, he⟩, rfl⟩ | ⟨hpc, i, u, hd, hu, rfl⟩⟩ := step_cases h
  case inl => simp [hpc]
  case inr.inl =>
    have hw : fetch s ≠ Config.haltWord := fun hw => by simp [hw, decode_haltWord] at he
    simp [hpc, he, hw]
  case inr.inr =>
    have hret := retired_of_exec hu
    rcases afterCommit_cases (fetch s) u with ⟨hw, hend⟩ | ⟨hw, hceiling, hend⟩ | ⟨hw, hbudget, hend⟩
    case inl =>
      rw [hend]
      simp [hpc, hw, decode_haltWord]
    case inr.inl =>
      rw [hend]
      rw [hret.params, hret.instret] at hceiling
      simp [hpc, hd, hw, hceiling]
    case inr.inr =>
      rw [hend]
      rw [hret.params, hret.instret] at hbudget
      simp [hpc, hd, hw, hbudget, hret.stopCause, hnone, hret.halted, hr.notHalted]

/-! ## A halted core (R20, R148) -/

/-- Settles O38: the answer is a refusal, which is neither a next state nor a fault. -/
theorem haltedCoreTakesNoStep : Obligations.HaltedCoreTakesNoStep := by
  unfold Obligations.HaltedCoreTakesNoStep
  intro s hhalted
  rw [step_of_halted hhalted]
  exact ⟨nofun, nofun⟩

end Sys2Proof.Machine

/-! PROOFS. The statements of 70_reset_and_hazards.md: the image load, the trace and the dump. -/

namespace Sys2Proof.Machine

/-! ## The image load (R163, R164) -/

/-- An address up to `CODE_END` is not reduced modulo 2^32 (R6). -/
theorem toNat_ofNat_of_le_codeEnd {p : Params} (hp : p.wellFormed = true) {a : Nat}
    (ha : a ≤ p.codeBase + p.codeSize) : (BitVec.ofNat 32 a).toNat = a := by
  have hf := params_facts hp
  exact Nat.mod_eq_of_lt (by omega)

/-- The place of an image word: four bytes inside the code region are a valid access. -/
theorem valid_ofNat_of_code {p : Params} (hp : p.wellFormed = true) {a : Nat} (hlo : p.codeBase ≤ a)
    (hhi : a + 4 ≤ p.codeBase + p.codeSize) : valid p (BitVec.ofNat 32 a) 4 = true := by
  have hf := params_facts hp
  rw [valid_four_iff hp, toNat_ofNat_of_le_codeEnd hp (by omega)]
  omega

/-- Loading an image leaves every byte outside it as it was. -/
theorem byte_writeImage_outside {p : Params} (hp : p.wellFormed = true) {s : State} (hs : s.params = p)
    (hm : Memory.wf s.mem) {a : Nat} {img : List Word} (hhi : a + 4 * img.length ≤ p.codeBase + p.codeSize) :
    SameMemOutside a (4 * img.length) s (writeImage s a img) := by
  induction img generalizing s a with
  | nil => exact fun _ _ => rfl
  | cons w img ih =>
    intro x hx
    rw [List.length_cons] at hhi hx
    have haddr := toNat_ofNat_of_le_codeEnd hp (a := a) (by omega)
    rw [writeImage, ih ((writeWord_params ..).trans hs) (writeWord_wf hm _ _) (by omega) x (by omega),
      byte_writeWord_outside hm _ _ (by omega)]

/-- Byte `j` of image word `k` stands `4k + j` bytes on: the words after it are stored elsewhere. -/
theorem byte_writeImage_inside {p : Params} (hp : p.wellFormed = true) {s : State} (hs : s.params = p)
    (hm : Memory.wf s.mem) {a : Nat} {img : List Word} (hlo : p.codeBase ≤ a)
    (hhi : a + 4 * img.length ≤ p.codeBase + p.codeSize) {k : Nat} (hk : k < img.length) {j : Nat}
    (hj : j < 4) :
    Memory.byte (writeImage s a img).mem (a + 4 * k + j) = BitVec.ofNat 8 (img[k].toNat >>> (8 * j)) := by
  induction img generalizing s a k with
  | nil => exact absurd hk (Nat.not_lt_zero k)
  | cons w img ih =>
    rw [List.length_cons] at hhi hk
    have hs' : (writeWord s (BitVec.ofNat 32 a) w).params = p := (writeWord_params ..).trans hs
    have hm' := writeWord_wf hm (BitVec.ofNat 32 a) w
    rw [writeImage]
    cases k with
    | zero =>
      have hvalid : valid s.params (BitVec.ofNat 32 a) 4 = true :=
        hs ▸ valid_ofNat_of_code hp hlo (by omega)
      have hword := byte_writeWord_inside (v := w) hm hvalid hj
      rw [toNat_ofNat_of_le_codeEnd hp (by omega)] at hword
      rw [byte_writeImage_outside hp hs' hm' (by omega) _ (by omega)]
      exact hword
    | succ k =>
      rw [show a + 4 * (k + 1) + j = a + 4 + 4 * k + j by omega]
      exact ih hs' hm' (by omega) (by omega) (by omega)

theorem memory_wf_resetWith (p : Params) : Memory.wf (State.resetWith p).mem := ⟨.nil, by simp⟩

theorem boot_of_fits {p : Params} {img : List Word} (hp : p.wellFormed = true)
    (hfits : 4 * img.length ≤ p.codeSize) :
    boot p img = some (writeImage (State.resetWith p) p.codeBase img) := by
  rw [boot, if_pos hp, loadImage]
  exact if_pos hfits

/-- Settles O44: the load begins at `CODE_BASE`, over memory that reset left empty. -/
theorem bootLoadsImage : Obligations.BootLoadsImage := by
  unfold Obligations.BootLoadsImage
  intro p img hp hfits
  have hs := resetWith_params p
  have hm := memory_wf_resetWith p
  have hhi : p.codeBase + 4 * img.length ≤ p.codeBase + p.codeSize := by omega
  refine ⟨_, boot_of_fits hp hfits, fun k hk j hj => ?image, fun a ha => ?others, fun r => ?registers, ?pc,
    by simp⟩
  case image => rw [byte_writeImage_inside hp hs hm (le_refl _) hhi hk hj, ofNat_and_0xFF]
  case others => rw [byte_writeImage_outside hp hs hm hhi a ha, resetWith_mem, Memory.byte_nil]
  case registers => rw [readReg_of_regs_eq (writeImage_regs ..), readReg_resetWith]
  case pc => rw [writeImage_pc, resetWith_pc, toNat_ofNat_of_le_codeEnd hp (Nat.le_add_right ..)]

theorem boot_of_too_long {p : Params} {img : List Word} (h : p.codeSize < 4 * img.length) :
    boot p img = none := by
  rw [boot, loadImage]
  split
  · exact if_neg (Nat.not_le.2 h)
  · rfl

/-- The core fresh from reset stands at the first byte of the code region. -/
theorem pcInCode_resetWith {p : Params} (hp : p.wellFormed = true) : PcInCode (State.resetWith p) := by
  have hf := params_facts hp
  rw [PcInCode, resetWith_params, resetWith_pc, toNat_ofNat_of_le_codeEnd hp (Nat.le_add_right ..)]
  omega

/-- Before any image is loaded, the fetch reads bytes nothing has written (D13). -/
theorem fetch_of_mem_nil {s : State} (hmem : s.mem = []) : fetch s = 0#32 := by
  rw [fetch, readWord, memRead, hmem, Memory.readBytes_nil, ite_self]

theorem decode_zero : decode 0#32 = .error .unknownOpcode := by decide

/-- Settles O45: the size test of the load; and the word of four unwritten bytes, 0, is no instruction. -/
theorem imageSizeLimits : Obligations.ImageSizeLimits := by
  unfold Obligations.ImageSizeLimits
  refine ⟨fun p img h => boot_of_too_long h, fun p hp => ?empty⟩
  case empty =>
    have hillegal : decode (fetch (State.resetWith p)) = .error .unknownOpcode := by
      rw [fetch_of_mem_nil (resetWith_mem p), decode_zero]
    exact ⟨State.resetWith p, _, boot_of_fits hp (Nat.zero_le _),
      step_of_illegal ⟨rfl, hp⟩ (pcInCode_resetWith hp) hillegal, rfl, rfl, rfl,
      toNat_ofNat_of_le_codeEnd hp (Nat.le_add_right ..)⟩

/-! ## The placed word (log 7) -/

/-- A state that can fetch, with a word stored at its pc, steps by running that word. -/
theorem step_writeWord_pc {s : State} (hr : Running s) (hpc : PcInCode s) (hm : Memory.wf s.mem) (v : Word) :
    step (writeWord s s.pc v) = runWord v (writeWord s s.pc v) := by
  have hr' : Running (writeWord s s.pc v) := ⟨by simpa using hr.notHalted, by simpa using hr.params⟩
  have hfetch : fetch (writeWord s s.pc v) = v := by
    rw [fetch, writeWord_pc, readWord_writeWord hm (valid_pc_of_pcInCode hr.params hpc)]
  rw [step_in_code hr' (by simpa using (inCode_pc_iff s).2 hpc), hfetch]

/-- Where the state can already fetch, placing a word is one store at the pc. -/
theorem withFetchWord_of_running {s : State} (hr : Running s) (hpc : PcInCode s) (nbits w : Nat) :
    s.withFetchWord nbits w = writeWord s s.pc (tableWord nbits w) := by
  rw [State.withFetchWord, placeFetchWord, readyToFetch_of_running hr ((inCode_pc_iff s).2 hpc)]

/-- Settles O46: the word is stored at the pc of a state that can fetch, which is the state itself where it
already could. -/
theorem placedWordIsFetchedNext : Obligations.PlacedWordIsFetchedNext := by
  unfold Obligations.PlacedWordIsFetchedNext
  intro s nbits w hm
  refine ⟨?runs, fun hr hpc => ?frame⟩
  case runs =>
    obtain ⟨hr, hcode, hmem, -⟩ := readyToFetch_spec s
    exact step_writeWord_pc hr ((inCode_pc_iff _).1 hcode) (hmem ▸ hm) _
  case frame =>
    rw [withFetchWord_of_running hr hpc]
    exact ⟨readReg_writeWord s _ _, fun b hb => byte_writeWord_outside hm _ _ hb, by simp⟩

/-! ## The trace (R166) -/

/-- Place `i` of a record's list is register `i`. -/
theorem traceRecord_getElem? (s : State) (i : RegIx) : (traceRecord s).regs[i.toNat]? = some (readReg s i) := by
  rw [traceRecord, List.getElem?_map, List.getElem?_range i.isLt, Option.map_some, BitVec.ofNat_toNat,
    BitVec.setWidth_eq]

/-- A step makes one record for each instruction it retires, which is one or none. -/
theorem length_stepRecord_add_instret {s t : State} (h : step s = .next t) :
    (stepRecord s).toList.length + s.instret = t.instret := by
  obtain ⟨-, ⟨-, rfl⟩ | ⟨-, -, rfl⟩ | ⟨-, i, u, -, hu, rfl⟩⟩ := step_cases h
  case inl | inr.inl => simp [stepRecord_of_stop h]
  case inr.inr =>
    have hcount : (afterCommit (fetch s) u).instret = s.instret + 1 :=
      (afterCommit_instret _ _).trans (retired_of_exec hu).instret
    rw [stepRecord_of_retirement h hcount, hcount]
    exact Nat.add_comm ..

/-- After an instruction that retired, the cause is one of the two tests' or the one before (R142, R143). -/
theorem afterCommit_stopCause_cases (w : Word) (s : State) :
    (afterCommit w s).stopCause = .virtualHalt ∨ (afterCommit w s).stopCause = .instructionCeiling
      ∨ (afterCommit w s).stopCause = s.stopCause := by
  rcases afterCommit_cases w s with ⟨-, h⟩ | ⟨-, -, h⟩ | ⟨-, -, h⟩ <;> simp [h]

/-- A step that ends in one of the two early stops has retired nothing (R140, R141). -/
theorem stepRecord_of_early_cause {s t : State} (h : step s = .next t)
    (hcause : t.stopCause = .pcOutOfCode ∨ t.stopCause = .illegalInstruction) (hnone : s.stopCause = .none) :
    stepRecord s = none := by
  obtain ⟨-, ⟨-, rfl⟩ | ⟨-, -, rfl⟩ | ⟨-, i, u, -, hu, rfl⟩⟩ := step_cases h
  case inl | inr.inl => exact stepRecord_of_stop h
  case inr.inr =>
    have hbefore : u.stopCause = .none := (retired_of_exec hu).stopCause.trans hnone
    rcases afterCommit_stopCause_cases (fetch s) u with hend | hend | hend <;> simp [hend, hbefore] at hcause

theorem traceOf_succ_of_step {s t : State} (h : step s = .next t) (k : Nat) :
    traceOf (k + 1) s = (stepRecord s).toList ++ traceOf k t := by
  simp only [traceOf, h]

theorem traceOf_of_no_step {s : State} (h : ∀ t, step s ≠ .next t) (k : Nat) : traceOf k s = [] := by
  cases k with
  | zero => rfl
  | succ k =>
    rw [traceOf]
    split
    · next t ht => exact absurd ht (h t)
    · rfl
    · rfl

/-- The records of a run are as many as the instructions it retired. -/
theorem length_traceOf_add_instret {k : Nat} {s t : State} (h : Host.Core.run Sys2Proof.core k s = .next t) :
    (traceOf k s).length + s.instret = t.instret := by
  induction k generalizing s with
  | zero =>
    cases h
    exact Nat.zero_add _
  | succ k ih =>
    obtain ⟨u, hu, hrest⟩ := step_of_run h
    have hfirst := length_stepRecord_add_instret hu
    have hlater := ih hrest
    rw [traceOf_succ_of_step hu, List.length_append]
    omega

/-- One step more only appends to the records. -/
theorem traceOf_prefix_succ (k : Nat) (s : State) : traceOf k s <+: traceOf (k + 1) s := by
  induction k generalizing s with
  | zero => exact List.nil_prefix
  | succ k ih =>
    by_cases h : ∃ t, step s = .next t
    · obtain ⟨t, ht⟩ := h
      rw [traceOf_succ_of_step ht, traceOf_succ_of_step ht]
      exact (List.prefix_append_right_inj _).2 (ih t)
    · rw [traceOf_of_no_step (not_exists.1 h)]
      exact List.nil_prefix

/-- Settles O47: the record of a state by its places, that of a step by how the step ends, and those of a run by
induction on its steps. -/
theorem traceRecordsRetirements : Obligations.TraceRecordsRetirements := by
  unfold Obligations.TraceRecordsRetirements
  refine ⟨fun s => ?record, fun s t h => ⟨stepRecord_of_retirement h, stepRecord_of_early_cause h⟩,
    fun k s t h => length_traceOf_add_instret h, traceOf_prefix_succ⟩
  case record =>
    have hzero := traceRecord_getElem? s 0#5
    rw [readReg_zero] at hzero
    exact ⟨rfl, by simp [traceRecord], traceRecord_getElem? s, hzero⟩

/-! ## The dump (R167) -/

theorem length_regionWords (s : State) (base size : Nat) : (regionWords s base size).length = size / 4 := by
  rw [regionWords, List.length_map, List.length_range]

theorem regionWords_getElem? (s : State) (base : Nat) {size k : Nat} (hk : k < size / 4) :
    (regionWords s base size)[k]? = some (readWord s (BitVec.ofNat 32 (base + 4 * k))) := by
  rw [regionWords, List.getElem?_map, List.getElem?_range hk, Option.map_some]

/-- Settles O48: each region's words follow those of the regions before it, whose lengths are known. -/
theorem dumpListsEveryWord : Obligations.DumpListsEveryWord := by
  unfold Obligations.DumpListsEveryWord
  intro s
  rw [dump]
  have hlength := length_regionWords s
  refine ⟨?length, fun k hk => ?code, fun k hk => ?stack, fun k hk => ?data⟩
  case length => simp only [List.length_append, hlength]
  case code =>
    rw [List.append_assoc, List.getElem?_append_left (by rwa [hlength]), regionWords_getElem? s _ hk]
  case stack =>
    rw [List.append_assoc, List.getElem?_append_right (by rw [hlength]; omega), hlength, Nat.add_sub_cancel_left,
      List.getElem?_append_left (by rwa [hlength]), regionWords_getElem? s _ hk]
  case data =>
    rw [List.getElem?_append_right (by rw [List.length_append, hlength, hlength]; omega), List.length_append,
      hlength, hlength, Nat.add_sub_cancel_left, regionWords_getElem? s _ hk]

end Sys2Proof.Machine
